-- ==== Sys2Proof/Word.lean ====
section
/-! DEFINITION. The widths the spec fixes: bytes, symbol values and 32-bit register words (00_scope.md R11). -/

namespace Sys2Proof

/-- A byte, 8 bits, unsigned (R11). Buffer elements, table entries and looked-up symbol values are bytes. -/
abbrev Byte := BitVec 8

/-- A symbol value, 5 bits, unsigned, 0-31 (R11). -/
abbrev SymbolValue := BitVec 5

/-- A 32-bit register word: CMD and STATUS (R18). -/
abbrev Word32 := BitVec 32

end Sys2Proof
end

