-- ==== Sys2Proof/Config.lean ====
section
/-! DEFINITION. What the spec leaves to the implementation: the OPEN parameter LEN_W, and the free values of DST bytes. -/

namespace Sys2Proof

/-- `LEN_W`, the width in bits of ARG, RESULT, SRC_LEN and DST_LEN: an OPEN parameter with `LEN_W >= 16`
(00_scope.md R7, D4). State carries it, so that a statement about every state is about every `LEN_W`. -/
structure LenW where
  bits : Nat
  atLeast16 : 16 ≤ bits
deriving DecidableEq, Repr

namespace Config

/-- The spec's reference instance `LEN_W = 64` (R7). DESIGN CHOICE (log entry 1): `State.reset` takes it. -/
def referenceLenW : LenW := ⟨64, by decide⟩

/-- A FREE VALUE (log entry 5): the byte at DST index `index` after `draw` draws of `havoc` have covered it and while
nothing has been stored there since. Draw 0 is what the host's buffer held to begin with. No body: nothing can be
proved about its value, so every byte of every draw is unspecified independently (R13, R36 c, R92). -/
opaque freeDstByte (draw index : Nat) : Byte

end Config

/-- `MAXLEN = 2^(LEN_W-1) - 1`, the largest representable length (R7). -/
def LenW.maxLen (w : LenW) : Int := 2 ^ (w.bits - 1) - 1

end Sys2Proof
end

