-- ==== Sys2Proof/Syntax.lean ====
section
/-! DEFINITION. The six commands of B32C, one constructor per row of the opcode table (30_encoding.md R51, R58). -/

namespace Sys2Proof

/-- A command. The operands that a command word carries stand here with exactly the width of their field (R52, R53);
all other operands come from registers (R54). -/
inductive Instr where
  /-- SYMBOLOF v, `v = CMD[12:8]`, 0-31 (R52). -/
  | symbolof (v : SymbolValue)
  /-- VALUEOF c, `c = CMD[15:8]`, 0-255 (R53). -/
  | valueof (c : Byte)
  /-- ENCLEN, `n = signed(ARG)` (R54). -/
  | enclen
  /-- DECLEN, `n = signed(ARG)` (R54). -/
  | declen
  /-- ENCODE, `n = signed(SRC_LEN)`, `cap = signed(DST_LEN)` (R54). -/
  | encode
  /-- DECODE, `n = signed(SRC_LEN)`, `cap = signed(DST_LEN)` (R54). -/
  | decode
deriving DecidableEq, Repr

end Sys2Proof
end

