-- ==== Sys2Proof/WellFormed.lean ====
section
/-! DEFINITION. The checks on WRITTEN operands (30_encoding.md R59, R60). A term of `Instr` is well-formed by its
type: its operands have exactly the widths of their fields (R52, R53), so no check on terms of `Instr` is left. What
can be ill-formed is an operand as a number in a line of assembly; the checks below refuse it. -/

namespace Sys2Proof

namespace WellFormed

/-- "An assembler refuses `SYMBOLOF` with `v > 31`" (R59); `v = 0..31`. -/
def symbolOperand (v : Int) : Bool := decide (0 ≤ v ∧ v ≤ 31)

/-- "... and `VALUEOF` with `c > 255`" (R59); `c = 0..255`. -/
def characterOperand (c : Int) : Bool := decide (0 ≤ c ∧ c ≤ 255)

/-- A number written to a `LEN_W`-bit register fits it, as a signed or as an unsigned word (R59 allows both spellings:
`-1` and `0xFFFF...`). DEDUCED (log entry 11): the spec gives no meaning to a number that does not fit. -/
def lengthOperand (w : LenW) (v : Int) : Bool := decide (-(2 ^ (w.bits - 1)) ≤ v ∧ v < 2 ^ w.bits)

end WellFormed

/-- The command a SYMBOLOF line stands for, where its operand is well-formed (R59). -/
def Instr.ofSymbolOperand (v : Int) : Option Instr :=
  if WellFormed.symbolOperand v then some (.symbolof (BitVec.ofInt 5 v)) else none

/-- The command a VALUEOF line stands for, where its operand is well-formed (R59). -/
def Instr.ofCharacterOperand (c : Int) : Option Instr :=
  if WellFormed.characterOperand c then some (.valueof (BitVec.ofInt 8 c)) else none

end Sys2Proof
end

