-- ==== Sys2Proof/Decode.lean ====
section
/-! DEFINITION. Command words: decoding, total over all 2^32 words and rejecting by name (30_encoding.md R55, R56), the
encoder (R59) and the opcode map (section 4). -/

namespace Sys2Proof

/-- Why a word is illegal. The spec has one verdict, ILLEGAL (R56); the names say which clause of R55 gave it and have
no effect on the machine. DESIGN CHOICE (log entry 7). -/
inductive Illegal where
  /-- `CMD[31:16] != 0` or `CMD[7:4] != 0`. -/
  | reservedBits
  /-- OP is 0x0 or in 0x7-0xF. -/
  | reservedOp
  /-- OP is 0x1 and `CMD[15:13] != 0`. -/
  | symbolHighBits
  /-- OP is in 0x3-0x6 and `CMD[15:8] != 0`. -/
  | immediateNotZero
deriving DecidableEq, Repr

/-- The fields of CMD32 (R50). -/
def fieldOp (w : Word32) : BitVec 4 := w.extractLsb' 0 4
/-- `CMD[7:4]`, reserved (R50). -/
def fieldRsv0 (w : Word32) : BitVec 4 := w.extractLsb' 4 4
/-- `CMD[15:8]` (R50). -/
def fieldImm8 (w : Word32) : BitVec 8 := w.extractLsb' 8 8
/-- `CMD[31:16]`, reserved (R50). -/
def fieldRsv1 (w : Word32) : BitVec 16 := w.extractLsb' 16 16
/-- `CMD[12:8]`, SYMBOLOF's operand (R52). -/
def fieldV (w : Word32) : SymbolValue := w.extractLsb' 8 5
/-- `CMD[15:13]`, which must be 0 for SYMBOLOF (R52). -/
def fieldVHigh (w : Word32) : BitVec 3 := w.extractLsb' 13 3

/-- The commands that take no immediate: legal only with IMM8 = 0 (R50, R55). -/
def withoutImmediate (w : Word32) (i : Instr) : Except Illegal Instr :=
  if fieldImm8 w = 0 then .ok i else .error .immediateNotZero

/-- `decode_cmd` (R56). -/
def decodeCmd (w : Word32) : Except Illegal Instr :=
  if fieldRsv1 w ≠ 0 ∨ fieldRsv0 w ≠ 0 then .error .reservedBits
  else
    match (fieldOp w).toNat with
    | 1 => if fieldVHigh w ≠ 0 then .error .symbolHighBits else .ok (.symbolof (fieldV w))
    | 2 => .ok (.valueof (fieldImm8 w))
    | 3 => withoutImmediate w .enclen
    | 4 => withoutImmediate w .declen
    | 5 => withoutImmediate w .encode
    | 6 => withoutImmediate w .decode
    | _ => .error .reservedOp

/-- The word is a legal command. -/
def isLegal (w : Word32) : Bool := (decodeCmd w).isOk

/-- The command word of a command (R59): OP in bits 3:0, the operand of SYMBOLOF and VALUEOF from bit 8. -/
def encodeCmd : Instr → Word32
  | .symbolof v => 0x00000001#32 ||| (v.setWidth 32 <<< 8)
  | .valueof c => 0x00000002#32 ||| (c.setWidth 32 <<< 8)
  | .enclen => 0x00000003#32
  | .declen => 0x00000004#32
  | .encode => 0x00000005#32
  | .decode => 0x00000006#32

/-- A row of the opcode map (30_encoding.md section 4, opcode_table.json): a word `w` is the row's command when
`w &&& mask = value`. -/
structure OpcodeRow where
  mnemonic : String
  value : Word32
  mask : Word32
deriving DecidableEq, Repr

/-- The opcode map. -/
def opcodeMap : List OpcodeRow :=
  [⟨"SYMBOLOF", 0x00000001, 0xFFFFE0FF⟩, ⟨"VALUEOF", 0x00000002, 0xFFFF00FF⟩, ⟨"ENCLEN", 0x00000003, 0xFFFFFFFF⟩,
   ⟨"DECLEN", 0x00000004, 0xFFFFFFFF⟩, ⟨"ENCODE", 0x00000005, 0xFFFFFFFF⟩, ⟨"DECODE", 0x00000006, 0xFFFFFFFF⟩]

/-- The word is of the row. -/
def OpcodeRow.covers (r : OpcodeRow) (w : Word32) : Bool := w &&& r.mask == r.value

/-- The mnemonic of a command, as the opcode table spells it. -/
def Instr.mnemonic : Instr → String
  | .symbolof _ => "SYMBOLOF"
  | .valueof _ => "VALUEOF"
  | .enclen => "ENCLEN"
  | .declen => "DECLEN"
  | .encode => "ENCODE"
  | .decode => "DECODE"

/-- The command that the decoder reads from a table word of `nbits` bits whose bits are `w`, bits above `nbits` zero. A
word with a bit at or above 32 is no command word (R57). -/
def decodeTableWord (nbits w : Nat) : Option Instr :=
  if w % 2 ^ nbits < 2 ^ 32 then
    match decodeCmd (BitVec.ofNat 32 (w % 2 ^ nbits)) with
    | .ok i => some i
    | .error _ => none
  else none

end Sys2Proof
end

