-- ==== Sys2Proof/Machine/State.lean ====
section
/-! DEFINITION. The state of a B32C with its buffers and its host (10_state.md, 20_memory.md), and the machine right
after reset (70_reset_and_hazards.md R99). Plain data. -/

namespace Sys2Proof.Machine

/-- Why a step stops without a next state. The spec's own contract violations are NOT here: they are the FAULTED state
(R92), which is a next state. -/
inductive Fault where
  /-- Raised by ENCODE and DECODE, after every contract check has passed, when SRC holds no byte at an index below
  `signed(SRC_LEN)`: the host has not provided the bytes R32 says it provides. Safe: the model stops where the spec
  gives no behaviour (log entry 4). -/
  | sourceNotProvided
deriving DecidableEq, Repr

/-- Why the model has no meaning for a step. -/
inductive Refusal where
  /-- Raised by an arm of `exec` for an instruction that has no meaning in the model yet. No arm does. Safe. -/
  | notModelled (mnemonic : String)
  /-- Raised by ENCODE, DECODE and the host's own stores into a buffer on a platform where SRC and DST overlap: "the
  model has no meaning for such a command and refuses it" (R43). Safe (log entry 6). -/
  | overlappingBuffers
deriving DecidableEq, Repr

/-- The six interface registers (R18). The numbers 0-5 are names for reference only. -/
inductive Reg where
  | cmd | arg | result | status | srcLen | dstLen
deriving DecidableEq, Repr

/-- How the platform has placed the buffers: apart, as the spec requires, or overlapping (R43). -/
inductive Placement where
  | disjoint | overlapping
deriving DecidableEq, Repr

/-- One act of the host (R19, R31, R60, R99). `writeX v` is the host write of a whole word to register X; a word of a
length register is named by an integer, `LEN_W` bits of it in two's complement (R7, R59; log entry 11). `readReg` and
`readDst` are reads (`RD`); `fillSrc` is `FILL SRC` from index 0; `storeSrc` and `storeDst` are the owner's direct store
of one byte; `reset` is the host's reset. -/
inductive HostAction where
  | writeCmd (word : Word32)
  | writeArg (v : Int)
  | writeResult (v : Int)
  | writeStatus (v : Word32)
  | writeSrcLen (v : Int)
  | writeDstLen (v : Int)
  | readReg (r : Reg)
  | readDst (first last : Nat)
  | fillSrc (bytes : List Byte)
  | storeSrc (index : Nat) (b : Byte)
  | storeDst (index : Nat) (b : Byte)
  | reset
deriving DecidableEq, Repr

/-- The bytes of one buffer that something fixes, as (index, byte) cells with strictly rising indices
(`Memory.wf`, Machine/Ops.lean). An index not listed holds no fixed byte. -/
abbrev Memory := List Host.Cell

/-- The state. `lenW` and `placement` are the instance's parameters, which no step changes (log entries 1 and 6);
`pending` and `dstDraws` are the model's own (log entries 2 and 5); everything else is the spec's. -/
structure State where
  /-- LEN_W (R7). -/
  lenW : LenW
  /-- Whether the platform keeps SRC and DST apart (R43). -/
  placement : Placement
  /-- CMD, register 0 (R20). -/
  cmd : Word32
  /-- ARG, register 1 (R21). -/
  arg : BitVec lenW.bits
  /-- RESULT, register 2 (R22). -/
  result : BitVec lenW.bits
  /-- STATUS, register 3 (R23): CODE in bits 1:0, CAUSE in bits 7:4. -/
  status : Word32
  /-- SRC_LEN, register 4 (R25). -/
  srcLen : BitVec lenW.bits
  /-- DST_LEN, register 5 (R26). -/
  dstLen : BitVec lenW.bits
  /-- The bytes of SRC that the host has provided (R32). -/
  src : Memory
  /-- The bytes of DST that something has fixed (R33). -/
  dst : Memory
  /-- The capacities of the draws `havoc(DST, 0, cap)` so far, in rising order. -/
  dstDraws : List Nat
  /-- What the host will do, first act first. -/
  pending : List HostAction
deriving DecidableEq, Repr

/-- A block of any LEN_W right after power-on reset: every register 0, not FAULTED (R99); nothing stored in the
buffers and no host act pending (log entries 2, 4, 5). -/
def State.resetAt (w : LenW) : State where
  lenW := w
  placement := .disjoint
  cmd := 0
  arg := 0
  result := 0
  status := 0
  srcLen := 0
  dstLen := 0
  src := []
  dst := []
  dstDraws := []
  pending := []

/-- The reference instance right after reset (R7, R99; log entry 1). -/
def State.reset : State := State.resetAt Config.referenceLenW

end Sys2Proof.Machine
end

