-- ==== Sys2Proof/Machine/Flags.lean ====
section
/-! DEFINITION. STATUS, the only flags of B32C (10_state.md R23, R24): CODE and CAUSE, how they are written and read,
and FAULTED (R27). -/

namespace Sys2Proof.Machine

/-- STATUS.CODE: the outcome of the last command (R23). -/
inductive Code where
  | ok | invalidLength | invalidChar | faulted
deriving DecidableEq, Repr

/-- STATUS.CAUSE: 0 unless CODE = FAULTED, then the contract violation (R90). -/
inductive Cause where
  | none | illegalCommand | badBufferLength | emptySource | badSourceLength | dstTooSmall
deriving DecidableEq, Repr

/-- The value of the CODE field (R23). -/
def Code.value : Code → BitVec 2
  | .ok => 0
  | .invalidLength => 1
  | .invalidChar => 2
  | .faulted => 3

/-- The value of the CAUSE field (R90). Values 6 to 15 are reserved and never written. -/
def Cause.value : Cause → BitVec 4
  | .none => 0
  | .illegalCommand => 1
  | .badBufferLength => 2
  | .emptySource => 3
  | .badSourceLength => 4
  | .dstTooSmall => 5

/-- The STATUS word with this CODE and CAUSE and every reserved bit 0 (R23). -/
def statusWord (code : Code) (cause : Cause) : Word32 :=
  code.value.setWidth 32 ||| (cause.value.setWidth 32 <<< 4)

/-- `STATUS[1:0]` (R23). -/
def statusCode (w : Word32) : BitVec 2 := w.extractLsb' 0 2

/-- `STATUS[7:4]` (R23). -/
def statusCause (w : Word32) : BitVec 4 := w.extractLsb' 4 4

/-- The state is FAULTED: `STATUS.CODE = 3` (R27). -/
def State.faulted (s : State) : Bool := statusCode s.status == Code.faulted.value

/-- The state has this outcome: STATUS is the word of this CODE and CAUSE. -/
abbrev State.outcome (s : State) (code : Code) (cause : Cause) : Prop := s.status = statusWord code cause

end Sys2Proof.Machine
end

