-- ==== Sys2Proof/Machine/Operands.lean ====
section
/-! DEFINITION. Operands: the signed reading of the length registers (00_scope.md R12, 30_encoding.md R54) and the
registers as the host reads them (10_state.md R19). -/

namespace Sys2Proof.Machine

/-- `signed(ARG)`, the operand `n` of ENCLEN and DECLEN (R21, R54). -/
def State.argN (s : State) : Int := s.arg.toInt

/-- `signed(SRC_LEN)`, the operand `n` of ENCODE and DECODE (R25, R54). -/
def State.srcN (s : State) : Int := s.srcLen.toInt

/-- `signed(DST_LEN)`, the operand `cap` of ENCODE and DECODE (R26, R54). -/
def State.dstCap (s : State) : Int := s.dstLen.toInt

/-- `signed(RESULT)` (R22). -/
def State.resultN (s : State) : Int := s.result.toInt

/-- The width of a register (R18). -/
def Reg.width (w : LenW) : Reg → Nat
  | .cmd => 32
  | .arg => w.bits
  | .result => w.bits
  | .status => 32
  | .srcLen => w.bits
  | .dstLen => w.bits

/-- What a host read of a register answers: the whole word (R19). A read has no side effect. -/
def State.readReg (s : State) : (r : Reg) → BitVec (r.width s.lenW)
  | .cmd => s.cmd
  | .arg => s.arg
  | .result => s.result
  | .status => s.status
  | .srcLen => s.srcLen
  | .dstLen => s.dstLen

end Sys2Proof.Machine
end

