-- ==== Sys2Proof/Machine/Ops.lean ====
section
/-! DEFINITION. The named operations every meaning is made of: the buffers (20_memory.md R34), `havoc` and `finish`
(00_scope.md R13), and taking a fault (60_exceptions.md R92) with the way out of it, reset (70_reset_and_hazards.md
R99). -/

namespace Sys2Proof.Machine

/-! ### Cells -/

/-- The canonical form: strictly rising indices. An index not listed holds no fixed byte, so no listed entry can be
equal to what an unlisted index reads as. -/
abbrev Memory.wf (m : Memory) : Prop := (m.map Prod.fst).Pairwise (· < ·)

/-- The byte at an index, if something has fixed it. What an unlisted index reads as: no value. -/
def Memory.read? : Memory → Nat → Option Byte
  | [], _ => none
  | (a, b) :: m, i => if i = a then some b else Memory.read? m i

/-- Replace the byte at an index; no other byte changes (R34). -/
def Memory.write : Memory → Nat → Byte → Memory
  | [], i, v => [(i, v)]
  | (a, b) :: m, i, v =>
    if i < a then (i, v) :: (a, b) :: m
    else if i = a then (a, v) :: m
    else (a, b) :: Memory.write m i v

/-- Write a list of bytes at rising indices from `i`. -/
def Memory.writeBytes : Memory → Nat → List Byte → Memory
  | m, _, [] => m
  | m, i, b :: bs => Memory.writeBytes (Memory.write m i b) (i + 1) bs

/-- The `k` bytes at indices `i .. i+k-1`, if all of them are there. -/
def Memory.readBytes? (m : Memory) : Nat → Nat → Option (List Byte)
  | _, 0 => some []
  | i, k + 1 =>
    match Memory.read? m i with
    | none => none
    | some b => (Memory.readBytes? m (i + 1) k).map (b :: ·)

/-- Leave no byte below `hi` fixed. -/
def Memory.unfixBelow (m : Memory) (hi : Nat) : Memory := m.filter fun c => hi ≤ c.1

/-! ### SRC and DST -/

/-- `MemRead(SRC, i, 1)` for `i = 0 .. n-1`: the source bytes of a command, or none if the host has not provided them
all (R32, R34). Reads have no side effect (R40). -/
def State.readSrc (s : State) (n : Nat) : Option (List Byte) := s.src.readBytes? 0 n

/-- `MemWrite(DST, i, 1, v)` for consecutive indices from 0 (R34). -/
def State.writeDst (s : State) (bytes : List Byte) : State := { s with dst := s.dst.writeBytes 0 bytes }

/-- How many draws have covered an index. -/
def drawsAt (draws : List Nat) (i : Nat) : Nat := draws.countP (fun cap => decide (i < cap))

/-- Record a draw, keeping the rising order (so that equal histories of every index are equal data). -/
def insertDraw (cap : Nat) : List Nat → List Nat
  | [] => [cap]
  | c :: cs => if cap ≤ c then cap :: c :: cs else c :: insertDraw cap cs

/-- The byte of DST at an index, as the host reads it: the byte something has fixed, or else the free value of the
index's latest draw (R13, R33, R36; log entry 5). -/
def State.dstByte (s : State) (i : Nat) : Byte :=
  (s.dst.read? i).getD (Config.freeDstByte (drawsAt s.dstDraws i) i)

/-- `havoc(DST, 0, hi)` (R13): every byte of DST at indices `0 .. hi-1` takes an unspecified value, each byte
independently: a fresh draw for each of them. Over an empty range nothing happens. -/
def State.havocDst (s : State) (hi : Nat) : State :=
  { s with
    dst := s.dst.unfixBelow hi
    dstDraws := if hi = 0 then s.dstDraws else insertDraw hi s.dstDraws }

/-- `havoc(DST, 0, signed(DST_LEN))`; nothing where DST_LEN is not positive (R86, R92). -/
def State.havocCapacity (s : State) : State := s.havocDst s.dstCap.toNat

/-! ### Ending a command -/

/-- An integer as a word of a length register: its low `LEN_W` bits, in two's complement (R7). `-1` is all ones
(R22). -/
def State.word (s : State) (v : Int) : BitVec s.lenW.bits := BitVec.ofInt s.lenW.bits v

/-- `finish(code, result)` (R13): CODE and RESULT are written, CAUSE is NONE (R24). -/
def State.finish (s : State) (code : Code) (result : Int) : State :=
  { s with status := statusWord code .none, result := s.word result }

/-- Whether the command uses the buffers: only ENCODE and DECODE do (R31, R92). -/
inductive Buffers where
  | used | unused
deriving DecidableEq, Repr

/-- The DST indices below which a fault of such a command leaves nothing specified (R92): DST_LEN where it is
positive and the command is ENCODE or DECODE; none otherwise. -/
def Buffers.havocBelow (s : State) : Buffers → Nat
  | .used => s.dstCap.toNat
  | .unused => 0

/-- `raise Fault(cause)`, fault entry (R92): STATUS is FAULTED with the cause, RESULT is -1, and if the command is
ENCODE or DECODE and DST_LEN is positive every DST byte below it is unspecified. Nothing else changes. -/
def State.raiseFault (s : State) (buffers : Buffers) (cause : Cause) : State :=
  { s.havocDst (buffers.havocBelow s) with status := statusWord .faulted cause, result := s.word (-1) }

/-- Reset, the only way out of FAULTED (R94, R99): every register takes its reset value (R18); the buffers, the ROM,
the instance's parameters and what the host does next are not touched. -/
def State.hostReset (s : State) : State :=
  { s with cmd := 0, arg := 0, result := 0, status := 0, srcLen := 0, dstLen := 0 }

/-- `CMD <- w`, part of issuing a command (R20). -/
def State.storeCmd (s : State) (w : Word32) : State := { s with cmd := w }

end Sys2Proof.Machine
end

