-- ==== Sys2Proof/Machine/Lengths.lean ====
section
/-! DEFINITION. The length functions and their commands ENCLEN and DECLEN (41_length.md). `none` is INVALID_LEN. -/

namespace Sys2Proof.Machine

/-- `E(n)`, EncodedLength (R72), exact, with the overflow verdict against MAXLEN. -/
def encodedLength (w : LenW) (n : Int) : Option Nat :=
  if n < 0 then none
  else
    let m := n.toNat
    let e := (m / 5) * 8 + ((m % 5) * 8 + 4) / 5
    if w.maxLen < (e : Int) then none else some e

/-- The decoded bytes of a tail of `r` symbols: `extra` of R74, `u(r)` of R84; none for the impossible remainders. -/
def tailBytes : Nat → Option Nat
  | 0 => some 0
  | 2 => some 1
  | 4 => some 2
  | 5 => some 3
  | 7 => some 4
  | _ => none

/-- `D(n)`, DecodedLength (R74). -/
def decodedLength (n : Int) : Option Nat :=
  if n < 0 then none
  else (tailBytes (n.toNat % 8)).map fun extra => (n.toNat / 8) * 5 + extra

/-- The CODE of a length command: OK for a length, INVALID_LENGTH for INVALID_LEN (R76, R77). -/
def lengthCode : Option Nat → Code
  | some _ => .ok
  | none => .invalidLength

/-- The RESULT of a length command: the length, or -1 (R76, R77). -/
def lengthResult : Option Nat → Int
  | some len => len
  | none => -1

/-- How a length command ends (R76, R77). -/
def State.finishLength (s : State) (len : Option Nat) : State :=
  s.finish (lengthCode len) (lengthResult len)

/-- ENCLEN (R76). -/
def execEnclen (s : State) : Host.Outcome State Fault Refusal :=
  .next (s.finishLength (encodedLength s.lenW s.argN))

/-- DECLEN (R77). -/
def execDeclen (s : State) : Host.Outcome State Fault Refusal :=
  .next (s.finishLength (decodedLength s.argN))

end Sys2Proof.Machine
end

