-- ==== Sys2Proof/Machine/Tables.lean ====
section
/-! DEFINITION. The alphabet tables and their commands SYMBOLOF and VALUEOF (40_tables.md). FWD and REV are ROM:
constants, valid from power-on, that nothing writes (10_state.md R28; log entry 9). -/

namespace Sys2Proof.Machine

/-- The reverse-table sentinel INVALID (R8). -/
def invalidEntry : Byte := 0xFF

/-- FWD, 32 entries (R63): the ASCII codes of `0123456789ABCDEFGHJKMNPQRSTVWXYZ`. -/
def fwdRom : List Byte :=
  [0x30, 0x31, 0x32, 0x33, 0x34, 0x35, 0x36, 0x37, 0x38, 0x39, 0x41, 0x42, 0x43, 0x44, 0x45, 0x46] ++
  [0x47, 0x48, 0x4A, 0x4B, 0x4D, 0x4E, 0x50, 0x51, 0x52, 0x53, 0x54, 0x56, 0x57, 0x58, 0x59, 0x5A]

/-- Sixteen invalid entries: a row of R68 that names no character. -/
def revRowInvalid : List Byte := List.replicate 16 invalidEntry

/-- Rows 4_ and 6_ of R68. -/
def revRowAO : List Byte :=
  [0xFF, 0x0A, 0x0B, 0x0C, 0x0D, 0x0E, 0x0F, 0x10, 0x11, 0x01, 0x12, 0x13, 0x01, 0x14, 0x15, 0x00]

/-- Rows 5_ and 7_ of R68. -/
def revRowPZ : List Byte :=
  [0x16, 0x17, 0x18, 0x19, 0x1A, 0xFF, 0x1B, 0x1C, 0x1D, 0x1E, 0x1F, 0xFF, 0xFF, 0xFF, 0xFF, 0xFF]

/-- Row 3_ of R68. -/
def revRowDigits : List Byte :=
  [0x00, 0x01, 0x02, 0x03, 0x04, 0x05, 0x06, 0x07, 0x08, 0x09, 0xFF, 0xFF, 0xFF, 0xFF, 0xFF, 0xFF]

/-- REV, 256 entries, row by row as R68 lists them. -/
def revRom : List Byte :=
  [revRowInvalid, revRowInvalid, revRowInvalid, revRowDigits,
   revRowAO, revRowPZ, revRowAO, revRowPZ,
   revRowInvalid, revRowInvalid, revRowInvalid, revRowInvalid,
   revRowInvalid, revRowInvalid, revRowInvalid, revRowInvalid].flatten

/-- `FWD[v]`. The default is never taken: the table has an entry for each of the 32 values. -/
def fwd (v : SymbolValue) : Byte := fwdRom.getD v.toNat 0

/-- `REV[c]`. The default is never taken: the table has an entry for each of the 256 bytes. -/
def rev (c : Byte) : Byte := revRom.getD c.toNat invalidEntry

/-- SYMBOLOF (R70): `finish(OK, zext_LEN_W(FWD[v]))`. -/
def execSymbolof (v : SymbolValue) (s : State) : Host.Outcome State Fault Refusal :=
  .next (s.finish .ok (fwd v).toNat)

/-- VALUEOF (R71): `finish(OK, zext_LEN_W(REV[c]))`; an INVALID entry is the value 255 with CODE = OK. -/
def execValueof (c : Byte) (s : State) : Host.Outcome State Fault Refusal :=
  .next (s.finish .ok (rev c).toNat)

end Sys2Proof.Machine
end

