-- ==== Sys2Proof/Machine/Decoder.lean ====
section
/-! DEFINITION. The decoder with canonical validation and its command DECODE (43_decoder.md). -/

namespace Sys2Proof.Machine

/-- `DecGroup` (R82): eight symbol values, each a looked-up entry 0-31, to five bytes. -/
def decGroup (c0 c1 c2 c3 c4 c5 c6 c7 : Byte) : List Byte :=
  [c0 <<< 3 ||| c1 >>> 2,
   (c1 &&& 0x03) <<< 6 ||| c2 <<< 1 ||| c3 >>> 4,
   (c3 &&& 0x0F) <<< 4 ||| c4 >>> 1,
   (c4 &&& 0x01) <<< 7 ||| c5 <<< 2 ||| c6 >>> 3,
   (c6 &&& 0x07) <<< 5 ||| c7]

/-- `DecGroup` of the entries of a group, the missing ones taken as zero (R84, R86). -/
def decGroupOf (cs : List Byte) : List Byte :=
  decGroup (cs.getD 0 0) (cs.getD 1 0) (cs.getD 2 0) (cs.getD 3 0)
    (cs.getD 4 0) (cs.getD 5 0) (cs.getD 6 0) (cs.getD 7 0)

/-- The invalid-symbol check (R83): the OR of the looked-up entries equals INVALID. -/
def invalidSeen (cs : List Byte) : Bool := cs.foldl (· ||| ·) 0 == invalidEntry

/-- `m(r)`, the bits of a tail's last value that must be 0 (R84). No tail has another length (R74). -/
def tailMask : Nat → Byte
  | 2 => 0x03
  | 4 => 0x0F
  | 5 => 0x01
  | 7 => 0x07
  | _ => 0

/-- The canonicality check (R85) fails: the last value of the tail has a bit that must be 0. -/
def tailBitsSet (cs : List Byte) : Bool := cs.getLastD 0 &&& tailMask cs.length != 0

/-- One full group (R86): its five bytes, or none for an invalid symbol. -/
def decodeFull (symbols : List Byte) : Option (List Byte) :=
  let cs := symbols.map rev
  if invalidSeen cs then none else some (decGroupOf cs)

/-- The tail (R84, R85, R86): its `u(r)` bytes, or none for an invalid symbol, then for set tail bits. -/
def decodeTail (symbols : List Byte) : Option (List Byte) :=
  let cs := symbols.map rev
  if invalidSeen cs then none
  else if tailBitsSet cs then none
  else some ((decGroupOf cs).take ((tailBytes cs.length).getD 0))

/-- The bytes of `q` full groups and the tail after them (R86); none for a data error. -/
def decodeGroups : Nat → List Byte → Option (List Byte)
  | 0, tail => decodeTail tail
  | q + 1, symbols =>
    match decodeFull (symbols.take 8) with
    | none => none
    | some out => (decodeGroups q (symbols.drop 8)).map (out ++ ·)

/-- The bytes DECODE writes to DST for the source symbols; none is INVALID_CHAR (R86, R87). -/
def decodeBytes (symbols : List Byte) : Option (List Byte) := decodeGroups (symbols.length / 8) symbols

/-- DECODE's contract checks in their order (R86, R91): the cause of the first violation, or `D(n)`. -/
def decodeContract (s : State) : Except Cause Nat :=
  if s.srcN < 0 ∨ s.dstCap < 0 then .error .badBufferLength
  else if s.srcN = 0 then .error .emptySource
  else
    match decodedLength s.srcN with
    | none => .error .badSourceLength
    | some len => if s.dstCap < (len : Int) then .error .dstTooSmall else .ok len

/-- DECODE (R86). After INVALID_CHAR every DST byte below DST_LEN is unspecified (R36 c). -/
def execDecode (s : State) : Host.Outcome State Fault Refusal :=
  match s.placement with
  | .overlapping => .refused .overlappingBuffers
  | .disjoint =>
    match decodeContract s with
    | .error cause => .next (s.raiseFault .used cause)
    | .ok len =>
      match s.readSrc s.srcN.toNat with
      | none => .fault .sourceNotProvided
      | some symbols =>
        match decodeBytes symbols with
        | none => .next (s.havocCapacity.finish .invalidChar (-1))
        | some bytes => .next ((s.writeDst bytes).finish .ok len)

end Sys2Proof.Machine
end

