-- ==== Sys2Proof/Machine/Encoder.lean ====
section
/-! DEFINITION. The encoder and its command ENCODE (42_encoder.md). -/

namespace Sys2Proof.Machine

/-- A byte masked to its low five bits, as a symbol value: `& 31`. -/
def low5 (b : Byte) : SymbolValue := b.setWidth 5

/-- `EncGroup` (R78): five bytes to eight symbol values. -/
def encGroup (b0 b1 b2 b3 b4 : Byte) : List SymbolValue :=
  [low5 (b0 >>> 3),
   low5 (b0 <<< 2 ||| b1 >>> 6),
   low5 (b1 >>> 1),
   low5 (b1 <<< 4 ||| b2 >>> 4),
   low5 (b2 <<< 1 ||| b3 >>> 7),
   low5 (b3 >>> 2),
   low5 (b3 <<< 3 ||| b4 >>> 5),
   low5 b4]

/-- `EncGroup` of the bytes of a group, the missing ones taken as zero (R79). -/
def encGroupOf (bs : List Byte) : List SymbolValue :=
  encGroup (bs.getD 0 0) (bs.getD 1 0) (bs.getD 2 0) (bs.getD 3 0) (bs.getD 4 0)

/-- `t(r)`, the symbols of a tail of `r` bytes (R73, R79); 0 for no tail. -/
def tailSymbols : Nat → Nat
  | 1 => 2
  | 2 => 4
  | 3 => 5
  | 4 => 7
  | _ => 0

/-- The symbol values of `q` full groups and the tail after them (R80): the groups in order, then the first `t(r)`
symbols of the tail's group. -/
def encodeGroups : Nat → List Byte → List SymbolValue
  | 0, tail => (encGroupOf tail).take (tailSymbols tail.length)
  | q + 1, bytes => encGroupOf (bytes.take 5) ++ encodeGroups q (bytes.drop 5)

/-- The bytes ENCODE writes to DST for the source bytes: the canonical character of each symbol value (R80). -/
def encodeBytes (bytes : List Byte) : List Byte := (encodeGroups (bytes.length / 5) bytes).map fwd

/-- ENCODE's contract checks in their order (R80, R91): the cause of the first violation, or `E(n)`. -/
def encodeContract (s : State) : Except Cause Nat :=
  if s.srcN < 0 ∨ s.dstCap < 0 then .error .badBufferLength
  else if s.srcN = 0 then .error .emptySource
  else
    match encodedLength s.lenW s.srcN with
    | none => .error .dstTooSmall
    | some e => if s.dstCap < (e : Int) then .error .dstTooSmall else .ok e

/-- ENCODE (R80). -/
def execEncode (s : State) : Host.Outcome State Fault Refusal :=
  match s.placement with
  | .overlapping => .refused .overlappingBuffers
  | .disjoint =>
    match encodeContract s with
    | .error cause => .next (s.raiseFault .used cause)
    | .ok e =>
      match s.readSrc s.srcN.toNat with
      | none => .fault .sourceNotProvided
      | some bytes => .next ((s.writeDst (encodeBytes bytes)).finish .ok e)

end Sys2Proof.Machine
end

