-- ==== Sys2Proof/Machine/Dispatch.lean ====
section
/-! DEFINITION. exec: one arm per command, each a direct call of its meaning. -/

namespace Sys2Proof.Machine

def exec (i : Instr) (s : State) : Host.Outcome State Fault Refusal :=
  match i with
  | .symbolof v => Sys2Proof.Machine.execSymbolof v s
  | .valueof c => Sys2Proof.Machine.execValueof c s
  | .enclen => Sys2Proof.Machine.execEnclen s
  | .declen => Sys2Proof.Machine.execDeclen s
  | .encode => Sys2Proof.Machine.execEncode s
  | .decode => Sys2Proof.Machine.execDecode s

end Sys2Proof.Machine
end

