-- ==== Sys2Proof/Machine/HostActions.lean ====
section
/-! DEFINITION. What each act of the host does to the block and its buffers (10_state.md R19, R20, 20_memory.md R31,
30_encoding.md R60, 60_exceptions.md R93, 70_reset_and_hazards.md R99). Machine/Step.lean only calls this. -/

namespace Sys2Proof.Machine

/-- A host write of `w` to CMD. While FAULTED it is ignored entirely (R19, R93). Otherwise the word is stored, legal
or not, and issues exactly one command; an illegal word faults ILLEGAL_COMMAND (R20, R55). -/
def issueCommand (w : Word32) (s : State) : Host.Outcome State Fault Refusal :=
  if s.faulted then .next s
  else
    match decodeCmd w with
    | .error _ => .next ((s.storeCmd w).raiseFault .unused .illegalCommand)
    | .ok i => exec i (s.storeCmd w)

/-- A host act that stores into a buffer: refused on a platform where the buffers overlap, since there the byte stored
is a byte of both (R43; log entry 6). -/
def storeBuffer (s t : State) : Host.Outcome State Fault Refusal :=
  match s.placement with
  | .overlapping => .refused .overlappingBuffers
  | .disjoint => .next t

/-- What one act of the host does. Writes to RESULT and STATUS are ignored and reads change nothing (R19). -/
def perform (s : State) (a : HostAction) : Host.Outcome State Fault Refusal :=
  match a with
  | .writeCmd word => issueCommand word s
  | .writeArg v => .next { s with arg := s.word v }
  | .writeResult _ => .next s
  | .writeStatus _ => .next s
  | .writeSrcLen v => .next { s with srcLen := s.word v }
  | .writeDstLen v => .next { s with dstLen := s.word v }
  | .readReg _ => .next s
  | .readDst _ _ => .next s
  | .fillSrc bytes => storeBuffer s { s with src := s.src.writeBytes 0 bytes }
  | .storeSrc i b => storeBuffer s { s with src := s.src.write i b }
  | .storeDst i b => storeBuffer s { s with dst := s.dst.write i b }
  | .reset => .next s.hostReset

/-- The state with the host's first pending act taken off the list. -/
def State.withPending (s : State) (rest : List HostAction) : State := { s with pending := rest }

/-- One step: the host's next act. With none pending the block is idle and nothing changes (R100; log entry 3). -/
def runNext (s : State) : Host.Outcome State Fault Refusal :=
  match s.pending with
  | [] => .next s
  | a :: rest => perform (s.withPending rest) a

/-- The state in which the host's next act is to write this word to CMD: what it does first is put before what it was
to do already. -/
def State.beforeWriting (s : State) (word : Word32) : State := s.withPending (.writeCmd word :: s.pending)

end Sys2Proof.Machine
end

