-- ==== Sys2Proof/Machine/Step.lean ====
section
/-! DEFINITION. The step, and how a command word is placed where the next step takes it (log entries 2 and 15). -/

namespace Sys2Proof.Machine

/-- One step of the machine: the host's next act, whole and indivisible (20_memory.md R41, R45). -/
def step (s : State) : Host.Outcome State Fault Refusal := runNext s

/-- The host is about to write the table word to CMD: B32C fetches nothing, its instruction is the word the host
writes to CMD (R16, R48). Bits of `w` at or above `nbits` are zero. -/
def State.withFetchWord (s : State) (nbits w : Nat) : State := s.beforeWriting (BitVec.ofNat 32 (w % 2 ^ nbits))

end Sys2Proof.Machine
end

