-- ==== Sys2Proof/Machine/Assembly.lean ====
section
/-! DEFINITION. The assembler and the host statements (30_encoding.md R59, R60, R61): the lines of a program and the
host acts each stands for. Notation only: nothing of it is a command of B32C. -/

namespace Sys2Proof.Machine

/-- A line of a program. Numbers are written numbers, not yet checked to fit (WellFormed.lean). -/
inductive AsmLine where
  /-- `SYMBOLOF <v>` (R59). -/
  | symbolof (v : Int)
  /-- `VALUEOF <c>` (R59). -/
  | valueof (c : Int)
  /-- `ENCLEN` (R59). -/
  | enclen
  /-- `DECLEN` (R59). -/
  | declen
  /-- `ENCODE` (R59). -/
  | encode
  /-- `DECODE` (R59). -/
  | decode
  /-- `.word <hex32>`: any word, legal or not (R59). -/
  | word (w : Word32)
  /-- `WR <reg>, <value>` (R60). -/
  | wr (r : Reg) (v : Int)
  /-- `FILL SRC, [b0, b1, ...]`, or the bytes of a text (R60). -/
  | fillSrc (bytes : List Byte)
  /-- `RD <reg>` (R60). -/
  | rd (r : Reg)
  /-- `RD DST[i..j]` (R60). -/
  | rdDst (first last : Nat)
  /-- `<reset>` (70_reset_and_hazards.md R99). -/
  | reset
  /-- `ENCLEN <n>` (R61). -/
  | enclenOf (n : Int)
  /-- `DECLEN <n>` (R61). -/
  | declenOf (n : Int)
  /-- `ENCODE <n>, <cap>` (R61). -/
  | encodeOf (n cap : Int)
  /-- `DECODE <n>, <cap>` (R61). -/
  | decodeOf (n cap : Int)
deriving DecidableEq, Repr

/-- "Every command line is a host write of its word to CMD" (R60). -/
def commandLine (i : Instr) : HostAction := .writeCmd (encodeCmd i)

/-- A number for a length register, where it fits (log entry 11). -/
def lengthNumber (w : LenW) (v : Int) : Option Int := if WellFormed.lengthOperand w v then some v else none

/-- `WR <reg>, <value>` (R60): a host write of ARG, SRC_LEN or DST_LEN; of RESULT or STATUS too, which the block
ignores (R19). A write of CMD is written as a command line or `.word` (R59), not as `WR`. -/
def writeStatement (w : LenW) (r : Reg) (v : Int) : Option (HostAction) :=
  match r with
  | .cmd => none
  | .arg => (lengthNumber w v).map .writeArg
  | .result => (lengthNumber w v).map .writeResult
  | .status => some (.writeStatus (BitVec.ofInt 32 v))
  | .srcLen => (lengthNumber w v).map .writeSrcLen
  | .dstLen => (lengthNumber w v).map .writeDstLen

/-- The writes of SRC_LEN and DST_LEN and then the command (R61). -/
def bufferCommand (w : LenW) (n cap : Int) (i : Instr) : Option (List HostAction) :=
  match writeStatement w .srcLen n, writeStatement w .dstLen cap with
  | some a, some b => some [a, b, commandLine i]
  | _, _ => none

/-- The host acts of a line on a block of this LEN_W, in the order written; none where the assembler refuses it. -/
def assemble (w : LenW) : AsmLine → Option (List HostAction)
  | .symbolof v => (Instr.ofSymbolOperand v).map fun i => [commandLine i]
  | .valueof c => (Instr.ofCharacterOperand c).map fun i => [commandLine i]
  | .enclen => some [commandLine .enclen]
  | .declen => some [commandLine .declen]
  | .encode => some [commandLine .encode]
  | .decode => some [commandLine .decode]
  | .word x => some [.writeCmd x]
  | .wr r v => (writeStatement w r v).map fun a => [a]
  | .fillSrc bytes => some [.fillSrc bytes]
  | .rd r => some [.readReg r]
  | .rdDst i j => some [.readDst i j]
  | .reset => some [.reset]
  | .enclenOf n => (writeStatement w .arg n).map fun a => [a, commandLine .enclen]
  | .declenOf n => (writeStatement w .arg n).map fun a => [a, commandLine .declen]
  | .encodeOf n cap => bufferCommand w n cap .encode
  | .decodeOf n cap => bufferCommand w n cap .decode

/-- The host acts of a program; none where the assembler refuses one of its lines. -/
def assembleAll (w : LenW) : List AsmLine → Option (List HostAction)
  | [] => some []
  | line :: lines =>
    match assemble w line, assembleAll w lines with
    | some acts, some rest => some (acts ++ rest)
    | _, _ => none

end Sys2Proof.Machine
end

