-- ==== Sys2Proof/Machine/Instances.lean ====
section
/-! DEFINITION. Several instances of B32C side by side (60_exceptions.md R97): each has its own registers, FAULTED
state, SRC and DST, and its own host; the ROM contents are the same constants in all of them. -/

namespace Sys2Proof.Machine

/-- A step of the instance at a position, if there is one. Which instance is next is the schedule's choice (log entry
12). -/
def stepOf (instances : List State) (k : Nat) : Host.Outcome (List State) Fault Refusal :=
  match instances[k]? with
  | none => .next instances
  | some s =>
    match step s with
    | .next t => .next (instances.set k t)
    | .fault r => .fault r
    | .refused r => .refused r

/-- Steps of the instances in the order of a schedule, up to the first that stops. -/
def runSchedule : List State → List Nat → Host.Outcome (List State) Fault Refusal
  | instances, [] => .next instances
  | instances, k :: ks =>
    match stepOf instances k with
    | .next instances' => runSchedule instances' ks
    | .fault r => .fault r
    | .refused r => .refused r

end Sys2Proof.Machine
end

