-- ==== Sys2Proof/Safety.lean ====
section
/-! DEFINITION. What counts as a sound state and as a successful end of a run, in the terms the statements use. -/

namespace Sys2Proof.Machine

/-- FAULTED "is a quiescent state that is never a successful end of a run" (60_exceptions.md R93). That is all the spec
says of it. DESIGN CHOICE (log entry 16): every state that is not FAULTED counts as a successful end, one that
INVALID_LENGTH or INVALID_CHAR left among them. -/
def State.successful (s : State) : Prop := s.faulted = false

/-- The frame of a command that does not write DST: everything but STATUS and RESULT is as it was, with LEN_W, CMD,
ARG, SRC_LEN, DST_LEN, SRC, DST and what the host does next. -/
def OnlyOutcomeChanged (s t : State) : Prop :=
  ∃ (status : Word32) (result : BitVec s.lenW.bits), t = { s with status := status, result := result }

/-- The frame of a command that may write DST: everything but STATUS, RESULT and DST is as it was. -/
def OnlyOutcomeAndDstChanged (s t : State) : Prop :=
  ∃ (status : Word32) (result : BitVec s.lenW.bits) (dst : Memory) (draws : List Nat),
    t = { s with status := status, result := result, dst := dst, dstDraws := draws }

/-- DST reads as before at every index. -/
def SameDst (s t : State) : Prop := ∀ i, t.dstByte i = s.dstByte i

/-- DST reads as before at and above an index. -/
def SameDstFrom (hi : Nat) (s t : State) : Prop := ∀ i, hi ≤ i → t.dstByte i = s.dstByte i

/-- Every DST byte below `hi` is a fresh free value (R13): that of a draw later than every draw the index has had, with
no byte fixed there. -/
def FreshDstBelow (hi : Nat) (s t : State) : Prop :=
  ∀ i, i < hi → t.dstByte i = Config.freeDstByte (drawsAt s.dstDraws i + 1) i

/-- The host has provided these source bytes at indices from 0 (R32). -/
def SrcProvided (s : State) (bytes : List Byte) : Prop := ∀ i, (h : i < bytes.length) → s.src.read? i = some bytes[i]

/-- Fault entry as the host sees it (R92): STATUS is this word, RESULT is -1, every DST byte below `hi` is a fresh free
value, and everything else is as it was. -/
structure FaultEntry (s t : State) (status : Word32) (hi : Nat) : Prop where
  frame : OnlyOutcomeAndDstChanged s t
  status : t.status = status
  result : t.resultN = -1
  below : FreshDstBelow hi s t
  above : SameDstFrom hi s t

/-- A command over the buffers ends well (R36): STATUS is OK, RESULT is the number of bytes written, every DST byte
from there on is as it was, and everything else is as it was. What the bytes written are is said beside it. -/
structure BufferSuccess (s t : State) (count : Nat) : Prop where
  frame : OnlyOutcomeAndDstChanged s t
  status : t.status = 0
  result : t.resultN = count
  above : SameDstFrom count s t

/-! ### The document's words, for the statements -/

/-- `v[hi:lo]`, "as an unsigned number of `hi-lo+1` bits" (R11). -/
def slice (v hi lo : Nat) : Nat := v / 2 ^ lo % 2 ^ (hi - lo + 1)

/-- The alphabet (40_tables.md R62). -/
def alphabet : List Char := "0123456789ABCDEFGHJKMNPQRSTVWXYZ".toList

/-- The ASCII byte of a character (R10). -/
def ascii (c : Char) : Byte := BitVec.ofNat 8 c.toNat

/-- The character of a symbol value (R62). -/
def letterOf (v : SymbolValue) : Byte := ascii (alphabet.getD v.toNat ' ')

/-- An assignment `t[c] <- v` of the table construction. -/
def putEntry (v : Byte) (t : List Byte) (c : Byte) : List Byte := t.set c.toNat v

/-- The construction's step for the canonical character at index `v`: its entry, and for a letter the lowercase one
(R64). -/
def putCanonical (t : List Byte) (v : Nat) : List Byte :=
  let ch := alphabet.getD v ' '
  let t := putEntry (BitVec.ofNat 8 v) t (ascii ch)
  if 'A' ≤ ch ∧ ch ≤ 'Z' then putEntry (BitVec.ofNat 8 v) t (ascii ch + 0x20) else t

/-- REV with all slots Invalid and then the canonical characters in index order (R64). -/
def buildRevCanonical : List Byte := (List.range 32).foldl putCanonical (List.replicate 256 0xFF)

/-- The construction of REV in the document's order (R64): the canonical entries, then the aliases over them. -/
def buildRev : List Byte :=
  let zero := buildRevCanonical.getD (ascii '0').toNat 0xFF
  let one := buildRevCanonical.getD (ascii '1').toNat 0xFF
  let withO := (['O', 'o'].map ascii).foldl (putEntry zero) buildRevCanonical
  (['I', 'i', 'L', 'l'].map ascii).foldl (putEntry one) withO

/-- Bit `p` of the bytes read as one stream, the earliest byte and its top bit first (20_memory.md R37); 0 beyond the
last byte (42_encoder.md R79). -/
def byteStreamBit (bytes : List Byte) (p : Nat) : Bool := (bytes.getD (p / 8) 0).getMsbD (p % 8)

/-- Bit `p` of the 5-bit values of the symbols read as one stream, the earliest symbol and its top bit first (R37). -/
def symbolStreamBit (symbols : List Byte) (p : Nat) : Bool :=
  (rev (symbols.getD (p / 5) 0)).getLsbD (4 - p % 5)

/-- The tail bits, those of the stream beyond its last whole byte, are zero (00_scope.md glossary, 43_decoder.md
R85). -/
def TailBitsZero (symbols : List Byte) : Prop :=
  ∀ p, 8 * (5 * symbols.length / 8) ≤ p → p < 5 * symbols.length → symbolStreamBit symbols p = false

/-- Every symbol is in the alphabet, as a canonical character, in lowercase or as an alias (R83). -/
def AllSymbolsValid (symbols : List Byte) : Prop := ∀ x ∈ symbols, rev x ≠ 0xFF

/-- The remainders a DECODE source length can have (R74). -/
def ValidRemainder (n : Nat) : Prop := n % 8 = 0 ∨ n % 8 = 2 ∨ n % 8 = 4 ∨ n % 8 = 5 ∨ n % 8 = 7

/-- STATUS and the other registers agree: what every step keeps. Each clause names what it rests on. -/
structure State.Inv (s : State) : Prop where
  /-- SRC and DST are in the canonical form. -/
  srcCanonical : s.src.wf
  dstCanonical : s.dst.wf
  /-- The draws stand in rising order, and none was of an empty range. -/
  drawsRising : s.dstDraws.Pairwise (· ≤ ·)
  drawsPositive : ∀ cap ∈ s.dstDraws, 0 < cap
  /-- STATUS holds a CODE and a CAUSE, CAUSE = NONE unless FAULTED, every reserved bit 0 (R23, R24, R90). -/
  statusLegal : ∃ code cause, s.status = statusWord code cause ∧ (cause = .none ↔ code ≠ .faulted)
  /-- RESULT is -1 on every outcome but OK, and a length or a table entry on OK (R22, R89, R92). -/
  resultOk : s.outcome .ok .none → 0 ≤ s.resultN
  resultNotOk : ¬ s.outcome .ok .none → s.resultN = -1
  /-- CMD still holds the word that gave STATUS (R20, R24, R90). -/
  cmdInvalidLength : s.outcome .invalidLength .none → s.cmd = encodeCmd .enclen ∨ s.cmd = encodeCmd .declen
  cmdInvalidChar : s.outcome .invalidChar .none → s.cmd = encodeCmd .decode
  cmdIllegal : s.outcome .faulted .illegalCommand → isLegal s.cmd = false
  cmdBadSource : s.outcome .faulted .badSourceLength → s.cmd = encodeCmd .decode
  cmdContract : ∀ cause, s.outcome .faulted cause → cause ≠ .illegalCommand →
    s.cmd = encodeCmd .encode ∨ s.cmd = encodeCmd .decode

end Sys2Proof.Machine
end

