-- ==== Sys2Proof/Certificates/Slice0/Obligations.lean ====
section
/-! DEFINITION. The statements for the provers. Every one is for all states, and so for every `LEN_W >= 16`. Words are
written as numbers: STATUS 0 is OK, 1 INVALID_LENGTH, 2 INVALID_CHAR, 0xC3 FAULTED with cause C (10_state.md R23). -/

open Sys2Proof Sys2Proof.Machine

/-! ### Command words -/

/-- Decoding and encoding agree: every command's word decodes to it, and every word that decodes to a command is that
command's word, so no bit of a word is dropped (30_encoding.md sections 3 and 5). -/
def Obligations.DecodeAndEncodeAgree : Prop :=
  (∀ i : Instr, decodeCmd (encodeCmd i) = .ok i) ∧ (∀ w i, decodeCmd w = .ok i → encodeCmd i = w)

/-- R55: which words are illegal, that issuing one faults ILLEGAL_COMMAND, that every other word is of exactly one row
of the opcode map, and that the all-zero word, which CMD holds after reset, is illegal. -/
def Obligations.IllegalWordsFaultAndAreExactly : Prop :=
  (∀ w : Word32, isLegal w = false ↔
    (w.toNat % 16 = 0 ∨ 7 ≤ w.toNat % 16) ∨ w.toNat / 16 % 16 ≠ 0 ∨ w.toNat / 65536 ≠ 0 ∨
    (w.toNat % 16 = 1 ∧ w.toNat / 8192 % 8 ≠ 0) ∨
    (3 ≤ w.toNat % 16 ∧ w.toNat % 16 ≤ 6 ∧ w.toNat / 256 % 256 ≠ 0)) ∧
  (∀ (s : State) (w : Word32) (rest : List HostAction), s.faulted = false → isLegal w = false →
    s.pending = .writeCmd w :: rest →
    step s = .next { s with pending := rest, cmd := w, status := 0x13#32, result := BitVec.ofInt s.lenW.bits (-1) }) ∧
  (∀ w : Word32, isLegal w = true ↔ ∃! r, r ∈ opcodeMap ∧ r.covers w = true) ∧
  isLegal 0#32 = false ∧ (∀ w : LenW, (State.resetAt w).cmd = 0#32)

/-- R56: `decode_cmd`, case by case over all words, and the 292 legal words. -/
def Obligations.DecodingIsTotalWith292LegalWords : Prop :=
  (∀ w : Word32, w.toNat / 65536 ≠ 0 ∨ w.toNat / 16 % 16 ≠ 0 → isLegal w = false) ∧
  (∀ w : Word32, w.toNat / 65536 = 0 → w.toNat / 16 % 16 = 0 →
    (w.toNat % 16 = 1 → w.toNat / 8192 % 8 ≠ 0 → isLegal w = false) ∧
    (w.toNat % 16 = 1 → w.toNat / 8192 % 8 = 0 →
      decodeCmd w = .ok (.symbolof (BitVec.ofNat 5 (w.toNat / 256 % 32)))) ∧
    (w.toNat % 16 = 2 → decodeCmd w = .ok (.valueof (BitVec.ofNat 8 (w.toNat / 256 % 256)))) ∧
    (3 ≤ w.toNat % 16 → w.toNat % 16 ≤ 6 → w.toNat / 256 % 256 ≠ 0 → isLegal w = false) ∧
    (w.toNat % 16 = 3 → w.toNat / 256 % 256 = 0 → decodeCmd w = .ok .enclen) ∧
    (w.toNat % 16 = 4 → w.toNat / 256 % 256 = 0 → decodeCmd w = .ok .declen) ∧
    (w.toNat % 16 = 5 → w.toNat / 256 % 256 = 0 → decodeCmd w = .ok .encode) ∧
    (w.toNat % 16 = 6 → w.toNat / 256 % 256 = 0 → decodeCmd w = .ok .decode) ∧
    (w.toNat % 16 = 0 ∨ 7 ≤ w.toNat % 16 → isLegal w = false)) ∧
  (∃ ws : List Word32, ws.Nodup ∧ ws.length = 292 ∧ ∀ w, isLegal w = true ↔ w ∈ ws)

/-- Words written out from the opcode map decode to the commands they stand for (30_encoding.md section 4, 95 section
8). -/
def Obligations.WrittenWordsDecode : Prop :=
  decodeCmd 0b00000000000000000001001000000001#32 = .ok (.symbolof 18) ∧
  decodeCmd 0b00000000000000000110110000000010#32 = .ok (.valueof 0x6C) ∧
  decodeCmd 0b00000000000000000000000000000011#32 = .ok .enclen ∧
  decodeCmd 0b00000000000000000000000000000100#32 = .ok .declen ∧
  decodeCmd 0b00000000000000000000000000000101#32 = .ok .encode ∧
  decodeCmd 0b00000000000000000000000000000110#32 = .ok .decode ∧
  isLegal 0b00000000000000000010000000000001#32 = false

/-- A step runs the decoded command: a host write of a word that decodes, to a block that is not FAULTED, is exec of
the command at the state in which CMD holds the word and the host's act is done (10_state.md section 2, CMD). -/
def Obligations.StepRunsTheDecodedCommand : Prop :=
  ∀ (s : State) (w : Word32) (i : Instr) (rest : List HostAction),
    s.faulted = false → s.pending = .writeCmd w :: rest → decodeCmd w = .ok i →
    step s = exec i { s with pending := rest, cmd := w }

/-! ### The tables and their commands -/

/-- R63: FWD is the ASCII code of the alphabet's character at each index, one to one onto the canonical characters. -/
def Obligations.ForwardTableIsTheAlphabet : Prop :=
  (∀ v : SymbolValue, some (fwd v) = (alphabet[v.toNat]?).map ascii) ∧
  (∀ v v' : SymbolValue, fwd v = fwd v' → v = v') ∧
  (∀ c ∈ alphabet, ∃ v : SymbolValue, fwd v = ascii c) ∧
  (∀ v : SymbolValue, ¬ (0x61#8 ≤ fwd v ∧ fwd v ≤ 0x7A#8))

/-- R64: the ROM contents of REV, and of FWD, are what the document's construction gives. -/
def Obligations.ReverseTableIsTheConstruction : Prop :=
  (∀ c : Byte, some (rev c) = buildRev[c.toNat]?) ∧
  (∀ v : SymbolValue, fwd v = letterOf v)

/-- R65: the canonical entries; and beside them the alias entries and the invalid ones, which are all the others
(40_tables.md section 2). -/
def Obligations.ReverseTableEntries : Prop :=
  (∀ k : Nat, k < 10 → rev (0x30#8 + BitVec.ofNat 8 k) = BitVec.ofNat 8 k) ∧
  (∀ v : SymbolValue, 10 ≤ v.toNat →
    rev (letterOf v) = v.setWidth 8 ∧ rev (letterOf v + 0x20#8) = v.setWidth 8) ∧
  (rev 0x4F#8 = 0 ∧ rev 0x6F#8 = 0 ∧ rev 0x49#8 = 1 ∧ rev 0x69#8 = 1 ∧ rev 0x4C#8 = 1 ∧ rev 0x6C#8 = 1) ∧
  (∀ v : SymbolValue, fwd v ≠ 0x4F#8 ∧ fwd v ≠ 0x49#8 ∧ fwd v ≠ 0x4C#8) ∧
  (∀ c : Byte, (∀ v : SymbolValue, c ≠ letterOf v ∧ (10 ≤ v.toNat → c ≠ letterOf v + 0x20#8)) →
    c ∉ [0x4F#8, 0x6F#8, 0x49#8, 0x69#8, 0x4C#8, 0x6C#8] → rev c = 0xFF)

/-- The properties of the tables (40_tables.md section 2): 60 valid entries, REV inverts FWD, FWD after REV is the
canonical form, and OR-ing entries finds an invalid one in a group of any length. -/
def Obligations.TableProperties : Prop :=
  ((List.range 256).filter fun c => rev (BitVec.ofNat 8 c) != 0xFF#8).length = 60 ∧
  (∀ v : SymbolValue, rev (fwd v) = v.setWidth 8) ∧
  (∀ c : Byte, rev c ≠ 0xFF → fwd ((rev c).setWidth 5) =
    if c = 0x4F#8 ∨ c = 0x6F#8 then 0x30#8
    else if c = 0x49#8 ∨ c = 0x69#8 ∨ c = 0x4C#8 ∨ c = 0x6C#8 then 0x31#8
    else if 0x61#8 ≤ c then c - 0x20#8 else c) ∧
  (∀ cs : List Byte, (cs.map rev).foldl (· ||| ·) 0 = 0xFF ↔ ∃ c ∈ cs, rev c = 0xFF) ∧
  (∀ cs : List Byte, (∀ c ∈ cs, rev c ≠ 0xFF) → ((cs.map rev).foldl (· ||| ·) 0).toNat ≤ 31)

/-- R70: SYMBOLOF. RESULT is the character, STATUS is OK, nothing else changes; its word, the illegal words beside it,
its use while FAULTED, and its corner cases. -/
def Obligations.SymbolofAnswersTheCharacter : Prop :=
  (∀ (v : SymbolValue) (s : State),
    exec (.symbolof v) s =
      .next { s with status := 0, result := BitVec.ofNat s.lenW.bits (alphabet.getD v.toNat ' ').toNat }) ∧
  (∀ v : SymbolValue, decodeCmd (0x00000001#32 ||| (v.setWidth 32 <<< 8)) = .ok (.symbolof v)) ∧
  (∀ (w : Word32) (s : State) (rest : List HostAction), w.toNat % 16 = 1 → w.toNat / 8192 % 8 ≠ 0 →
    s.faulted = false → s.pending = .writeCmd w :: rest →
    step s = .next { s with pending := rest, cmd := w, status := 0x13#32, result := BitVec.ofInt s.lenW.bits (-1) }) ∧
  (∀ (v : SymbolValue) (s : State) (rest : List HostAction), s.faulted = true →
    s.pending = .writeCmd (0x00000001#32 ||| (v.setWidth 32 <<< 8)) :: rest →
    step s = .next { s with pending := rest }) ∧
  (∀ (v : SymbolValue) (s t : State), exec (.symbolof v) s = .next t →
    (v = 0 → t.resultN = 0x30) ∧ (v = 31 → t.resultN = 0x5A) ∧ (v = 18 → t.resultN = 0x4A) ∧
    ¬ (0x61 ≤ t.resultN ∧ t.resultN ≤ 0x7A) ∧ t.resultN ∉ [0x49, 0x4C, 0x4F, 0x55])

/-- R71: VALUEOF. RESULT is the entry of REV, 0-31 or 255, STATUS is OK, nothing else changes; its word, its use while
FAULTED, and its corner cases. -/
def Obligations.ValueofAnswersTheEntry : Prop :=
  (∀ (c : Byte) (s : State),
    exec (.valueof c) s =
      .next { s with status := 0, result := BitVec.ofNat s.lenW.bits (buildRev.getD c.toNat 0).toNat }) ∧
  (∀ c : Byte, decodeCmd (0x00000002#32 ||| (c.setWidth 32 <<< 8)) = .ok (.valueof c)) ∧
  (∀ (c : Byte) (s : State) (rest : List HostAction), s.faulted = true →
    s.pending = .writeCmd (0x00000002#32 ||| (c.setWidth 32 <<< 8)) :: rest →
    step s = .next { s with pending := rest }) ∧
  (∀ (c : Byte) (s t : State), exec (.valueof c) s = .next t →
    ((0 ≤ t.resultN ∧ t.resultN ≤ 31) ∨ t.resultN = 255) ∧
    (c ∈ [0x00#8, 0xFF#8, 0x55#8] → t.resultN = 255) ∧ (c = 0x6F#8 → t.resultN = 0) ∧
    (c ∈ [0x4C#8, 0x6C#8] → t.resultN = 1)) ∧
  (∀ (c : Byte) (s t t' : State), 0x41#8 ≤ c → c ≤ 0x5A#8 → exec (.valueof c) s = .next t →
    exec (.valueof (c + 0x20#8)) s = .next t' → t = t')

/-! ### The length functions and their commands -/

/-- The properties of E (41_length.md section 1): it is `8q + t(r)`, which is `ceil(8n / 5)`, and `NMAX_ENC` is the
largest length it encodes. -/
def Obligations.EncodedLengthProperties : Prop :=
  ∀ w : LenW,
    (∀ q r : Nat, r < 5 → ∀ e, encodedLength w ((5 * q + r : Nat) : Int) = some e →
      e = 8 * q + [0, 2, 4, 5, 7].getD r 0) ∧
    (∀ n e : Nat, encodedLength w n = some e → 8 * n ≤ 5 * e ∧ 5 * e < 8 * n + 5 ∧ (e : Int) ≤ w.maxLen) ∧
    (∀ n : Int, (encodedLength w n).isSome ↔ 0 ≤ n ∧ n ≤ 5 * 2 ^ (w.bits - 4) - 1) ∧
    (∃ e : Nat, encodedLength w (5 * 2 ^ (w.bits - 4) - 1) = some e ∧ (e : Int) = w.maxLen) ∧
    (5 * w.maxLen) / 8 = 5 * 2 ^ (w.bits - 4) - 1

/-- The length inverse law and the remainder validity (41_length.md section 1): D inverts E and E inverts D, D is
`floor(5n / 8)`, and exactly the remainders 1, 3 and 6 are invalid. -/
def Obligations.LengthsAreInverse : Prop :=
  (∀ (w : LenW) (n : Int) (e : Nat), encodedLength w n = some e → (decodedLength e).map Int.ofNat = some n) ∧
  (∀ (w : LenW) (m : Int) (d : Nat), m ≤ w.maxLen → decodedLength m = some d →
    (encodedLength w d).map Int.ofNat = some m) ∧
  (∀ n d : Nat, decodedLength n = some d → d = 5 * n / 8 ∧ d ≤ n) ∧
  (∀ n : Nat, (decodedLength n).isSome ↔ ValidRemainder n) ∧
  (∀ n : Int, n < 0 → decodedLength n = none)

/-- R76: ENCLEN. RESULT is E(n) with OK, or -1 with INVALID_LENGTH; nothing else changes; its word, its use
while FAULTED, and its corner cases. -/
def Obligations.EnclenAnswersTheEncodedLength : Prop :=
  (∀ s : State,
    (s.argN < 0 ∨ s.lenW.maxLen < (s.argN / 5) * 8 + ((s.argN % 5) * 8 + 4) / 5 →
      exec .enclen s = .next { s with status := 1, result := BitVec.ofInt s.lenW.bits (-1) }) ∧
    (0 ≤ s.argN → (s.argN / 5) * 8 + ((s.argN % 5) * 8 + 4) / 5 ≤ s.lenW.maxLen →
      exec .enclen s = .next { s with
        status := 0
        result := BitVec.ofInt s.lenW.bits ((s.argN / 5) * 8 + ((s.argN % 5) * 8 + 4) / 5) })) ∧
  decodeCmd 0x00000003#32 = .ok .enclen ∧
  (∀ w : Word32, w.toNat % 4 = 3 → w ≠ 0x00000003#32 → isLegal w = false) ∧
  (∀ (s : State) (rest : List HostAction), s.faulted = true →
    s.pending = .writeCmd 0x00000003#32 :: rest → step s = .next { s with pending := rest }) ∧
  (∀ s t : State, exec .enclen s = .next t →
    (s.argN = 0 → t.status = 0 ∧ t.resultN = 0) ∧ (s.argN = 19 → t.status = 0 ∧ t.resultN = 31) ∧
    (s.argN = 5 * 2 ^ (s.lenW.bits - 4) - 1 → t.status = 0 ∧ t.resultN = s.lenW.maxLen) ∧
    (s.argN = 5 * 2 ^ (s.lenW.bits - 4) → t.status = 1 ∧ t.resultN = -1) ∧
    (s.argN = s.lenW.maxLen → t.status = 1 ∧ t.resultN = -1))

/-- R77: DECLEN. RESULT is D(n) with OK, or -1 with INVALID_LENGTH; nothing else changes; its word, its use
while FAULTED, and its corner cases. -/
def Obligations.DeclenAnswersTheDecodedLength : Prop :=
  (∀ s : State,
    (s.argN < 0 ∨ s.argN % 8 = 1 ∨ s.argN % 8 = 3 ∨ s.argN % 8 = 6 →
      exec .declen s = .next { s with status := 1, result := BitVec.ofInt s.lenW.bits (-1) }) ∧
    (∀ extra : Int, 0 ≤ s.argN →
      (s.argN % 8, extra) ∈ [((0 : Int), (0 : Int)), (2, 1), (4, 2), (5, 3), (7, 4)] →
      exec .declen s = .next { s with
        status := 0, result := BitVec.ofInt s.lenW.bits ((s.argN / 8) * 5 + extra) })) ∧
  decodeCmd 0x00000004#32 = .ok .declen ∧
  (∀ w : Word32, decodeCmd w = .ok .declen → w = 0x00000004#32) ∧
  (∀ (s : State) (rest : List HostAction), s.faulted = true →
    s.pending = .writeCmd 0x00000004#32 :: rest → step s = .next { s with pending := rest }) ∧
  (∀ s t : State, exec .declen s = .next t →
    (∀ p ∈ [((0 : Int), (0 : Int)), (2, 1), (4, 2), (5, 3), (7, 4), (8, 5)], s.argN = p.1 →
      t.status = 0 ∧ t.resultN = p.2) ∧
    (s.argN ∈ [(1 : Int), 3, 6, 30] → t.status = 1 ∧ t.resultN = -1) ∧
    (s.argN = s.lenW.maxLen → t.status = 0))

/-! ### ENCODE -/

/-- R78: EncGroup is the document's formulas over unbounded integers, and bit by bit the slices they come to, `a`
above `k` bits of `b` being `a * 2^k + b`. -/
def Obligations.EncodeGroupFormulas : Prop :=
  ∀ v0 v1 v2 v3 v4 : Byte,
    let b0 := v0.toNat; let b1 := v1.toNat; let b2 := v2.toNat; let b3 := v3.toNat; let b4 := v4.toNat
    (encGroup v0 v1 v2 v3 v4).map BitVec.toNat =
      [b0 >>> 3,
       (b0 <<< 2 ||| b1 >>> 6) &&& 31,
       (b1 >>> 1) &&& 31,
       (b1 <<< 4 ||| b2 >>> 4) &&& 31,
       (b2 <<< 1 ||| b3 >>> 7) &&& 31,
       (b3 >>> 2) &&& 31,
       (b3 <<< 3 ||| b4 >>> 5) &&& 31,
       b4 &&& 31] ∧
    (encGroup v0 v1 v2 v3 v4).map BitVec.toNat =
      [slice b0 7 3, slice b0 2 0 * 2 ^ 2 + slice b1 7 6, slice b1 5 1, slice b1 0 0 * 2 ^ 4 + slice b2 7 4,
       slice b2 3 0 * 2 + slice b3 7 7, slice b3 6 2, slice b3 1 0 * 2 ^ 3 + slice b4 7 5, slice b4 4 0]

/-- ENCODE completes: with its preconditions met it writes, at each DST index below `ceil(8n / 5)`, the canonical
character of the next five bits of the source read as one stream, most significant first, zero bits beyond its end;
RESULT is that count, STATUS is OK, and nothing else changes (20_memory.md section 2, 42_encoder.md section 2). -/
def Obligations.EncodeWritesTheBitStream : Prop :=
  ∀ (s : State) (bytes : List Byte), s.placement = .disjoint → bytes ≠ [] → s.srcN = bytes.length →
    SrcProvided s bytes → (((8 * bytes.length + 4) / 5 : Nat) : Int) ≤ s.dstCap →
    ∃ t, exec .encode s = .next t ∧ BufferSuccess s t ((8 * bytes.length + 4) / 5) ∧
      ∀ j, j < (8 * bytes.length + 4) / 5 →
        ∃ v : SymbolValue, t.dst.read? j = some (letterOf v) ∧
          ∀ k, k < 5 → v.getMsbD k = byteStreamBit bytes (5 * j + k)

/-- ENCODE faults, in the order of its checks: BAD_BUFFER_LENGTH, EMPTY_SOURCE, DST_TOO_SMALL (42_encoder.md section 2,
60_exceptions.md section 2); each is fault entry with every DST byte below DST_LEN unspecified. -/
def Obligations.EncodeFaultsInOrder : Prop :=
  ∀ s : State, s.placement = .disjoint →
    (s.srcN < 0 ∨ s.dstCap < 0 → ∃ t, exec .encode s = .next t ∧ FaultEntry s t 0x23#32 s.dstCap.toNat) ∧
    (s.srcN = 0 → 0 ≤ s.dstCap → ∃ t, exec .encode s = .next t ∧ FaultEntry s t 0x33#32 s.dstCap.toNat) ∧
    (0 < s.srcN → 0 ≤ s.dstCap → s.dstCap < (8 * s.srcN + 4) / 5 →
      ∃ t, exec .encode s = .next t ∧ FaultEntry s t 0x53#32 s.dstCap.toNat)

/-! ### DECODE -/

/-- R82: DecGroup is the document's formulas over unbounded integers, where every value is below 256, bit by bit the
slices they come to, and the inverse of EncGroup. -/
def Obligations.DecodeGroupFormulas : Prop :=
  (∀ v0 v1 v2 v3 v4 v5 v6 v7 : SymbolValue,
    let c0 := v0.toNat; let c1 := v1.toNat; let c2 := v2.toNat; let c3 := v3.toNat
    let c4 := v4.toNat; let c5 := v5.toNat; let c6 := v6.toNat; let c7 := v7.toNat
    let out := decGroup (v0.setWidth 8) (v1.setWidth 8) (v2.setWidth 8) (v3.setWidth 8) (v4.setWidth 8)
      (v5.setWidth 8) (v6.setWidth 8) (v7.setWidth 8)
    out.map BitVec.toNat =
      [c0 <<< 3 ||| c1 >>> 2,
       (c1 &&& 0x03) <<< 6 ||| c2 <<< 1 ||| c3 >>> 4,
       (c3 &&& 0x0F) <<< 4 ||| c4 >>> 1,
       (c4 &&& 0x01) <<< 7 ||| c5 <<< 2 ||| c6 >>> 3,
       (c6 &&& 0x07) <<< 5 ||| c7] ∧
    out.map BitVec.toNat =
      [slice c0 4 0 * 2 ^ 3 + slice c1 4 2,
       slice c1 1 0 * 2 ^ 6 + slice c2 4 0 * 2 + slice c3 4 4,
       slice c3 3 0 * 2 ^ 4 + slice c4 4 1,
       slice c4 0 0 * 2 ^ 7 + slice c5 4 0 * 2 ^ 2 + slice c6 4 3,
       slice c6 2 0 * 2 ^ 5 + slice c7 4 0] ∧
    encGroupOf out = [v0, v1, v2, v3, v4, v5, v6, v7]) ∧
  (∀ b0 b1 b2 b3 b4 : Byte,
    decGroupOf ((encGroup b0 b1 b2 b3 b4).map fun v => v.setWidth 8) = [b0, b1, b2, b3, b4])

/-- DECODE completes: with its preconditions met, every symbol in the alphabet and the tail bits zero, it writes at
each DST index below `floor(5n / 8)` the next eight bits of the symbol values read as one stream, most significant
first; RESULT is that count, STATUS is OK, and nothing else changes (20_memory.md section 2, 43_decoder.md section
2). -/
def Obligations.DecodeWritesTheBitStream : Prop :=
  ∀ (s : State) (symbols : List Byte), s.placement = .disjoint → symbols ≠ [] → s.srcN = symbols.length →
    SrcProvided s symbols → ValidRemainder symbols.length → ((5 * symbols.length / 8 : Nat) : Int) ≤ s.dstCap →
    AllSymbolsValid symbols → TailBitsZero symbols →
    ∃ t, exec .decode s = .next t ∧ BufferSuccess s t (5 * symbols.length / 8) ∧
      ∀ j, j < 5 * symbols.length / 8 →
        ∃ b : Byte, t.dst.read? j = some b ∧ ∀ k, k < 8 → b.getMsbD k = symbolStreamBit symbols (8 * j + k)

/-- DECODE ends with INVALID_CHAR exactly when, its preconditions met, a symbol is outside the alphabet or a tail bit
is set; then RESULT is -1, every DST byte below DST_LEN is a fresh free value, and nothing else changes
(43_decoder.md sections 1 and 2, 20_memory.md section 1). -/
def Obligations.DecodeRejectsExactlyBadContent : Prop :=
  ∀ (s : State) (symbols : List Byte), s.placement = .disjoint → symbols ≠ [] → s.srcN = symbols.length →
    SrcProvided s symbols → ValidRemainder symbols.length → ((5 * symbols.length / 8 : Nat) : Int) ≤ s.dstCap →
    ∃ t, exec .decode s = .next t ∧ OnlyOutcomeAndDstChanged s t ∧
      (t.status = 2 ↔ ¬ (AllSymbolsValid symbols ∧ TailBitsZero symbols)) ∧
      (t.status = 2 → t.resultN = -1 ∧ FreshDstBelow s.dstCap.toNat s t ∧ SameDstFrom s.dstCap.toNat s t) ∧
      (t.status ≠ 2 → t.status = 0)

/-- DECODE faults, in the order of its checks: BAD_BUFFER_LENGTH, EMPTY_SOURCE, BAD_SOURCE_LENGTH, DST_TOO_SMALL
(43_decoder.md section 2, 60_exceptions.md section 2); each is fault entry with every DST byte below DST_LEN
unspecified. -/
def Obligations.DecodeFaultsInOrder : Prop :=
  ∀ s : State, s.placement = .disjoint →
    (s.srcN < 0 ∨ s.dstCap < 0 → ∃ t, exec .decode s = .next t ∧ FaultEntry s t 0x23#32 s.dstCap.toNat) ∧
    (s.srcN = 0 → 0 ≤ s.dstCap → ∃ t, exec .decode s = .next t ∧ FaultEntry s t 0x33#32 s.dstCap.toNat) ∧
    (0 < s.srcN → 0 ≤ s.dstCap → ¬ ValidRemainder s.srcN.toNat →
      ∃ t, exec .decode s = .next t ∧ FaultEntry s t 0x43#32 s.dstCap.toNat) ∧
    (0 < s.srcN → 0 ≤ s.dstCap → ValidRemainder s.srcN.toNat → s.dstCap < 5 * s.srcN / 8 →
      ∃ t, exec .decode s = .next t ∧ FaultEntry s t 0x53#32 s.dstCap.toNat)

/-- Alias and case equivalence (43_decoder.md section 3): two sources whose symbols have the same values, position by
position, decode alike, whatever spellings they use; and the aliases and lowercase letters have the values of what
they stand for. MODEL'S CHOICE (log entry 5) in one respect: after INVALID_CHAR or a fault the two next states are equal
in their unspecified DST bytes too, because both take the same draw; the spec leaves each such byte free in each run
(20_memory.md section 1). -/
def Obligations.DecodeIgnoresSpelling : Prop :=
  (∀ (s : State) (symbols symbols' : List Byte) (src' : Memory), SrcProvided s symbols →
    s.srcN = symbols.length → symbols'.map rev = symbols.map rev →
    SrcProvided { s with src := src' } symbols' →
    ∀ t, exec .decode s = .next t → exec .decode { s with src := src' } = .next { t with src := src' }) ∧
  (∀ p ∈ [('O', '0'), ('o', '0'), ('I', '1'), ('i', '1'), ('L', '1'), ('l', '1')],
    rev (ascii p.1) = rev (ascii p.2)) ∧
  (∀ v : SymbolValue, 10 ≤ v.toNat → rev (letterOf v + 0x20#8) = rev (letterOf v))

/-- How many symbol values a tail may end with (43_decoder.md section 3): 8 of 32 for two symbols, 2 for four, 16 for
five, 4 for seven. -/
def Obligations.LegalLastSymbols : Prop :=
  ∀ p ∈ [(2, 8), (4, 2), (5, 16), (7, 4)],
    ((List.range 32).filter fun v => BitVec.ofNat 8 v &&& tailMask p.1 == 0#8).length = p.2

/-! ### ENCODE and DECODE together -/

/-- Round trip (42_encoder.md section 3): DECODE of what ENCODE wrote gives the source back. -/
def Obligations.DecodeOfEncodeIsTheSource : Prop :=
  ∀ (s t u : State) (bytes : List Byte), exec .encode s = .next t → t.status = 0 →
    s.srcN = bytes.length → SrcProvided s bytes →
    u.lenW = s.lenW → u.placement = .disjoint → u.srcN = t.resultN → (bytes.length : Int) ≤ u.dstCap →
    (∀ j : Nat, (j : Int) < t.resultN → u.src.read? j = t.dst.read? j) →
    ∃ r, exec .decode u = .next r ∧ BufferSuccess u r bytes.length ∧
      ∀ j, (h : j < bytes.length) → r.dst.read? j = some bytes[j]

/-- Canonical form (43_decoder.md section 3): ENCODE of what a DECODE that ended OK wrote gives the source back with
every symbol in its canonical spelling, uppercase and without aliases. -/
def Obligations.EncodeOfDecodeIsCanonical : Prop :=
  ∀ (s t u : State) (symbols : List Byte), exec .decode s = .next t → t.status = 0 →
    s.srcN = symbols.length → SrcProvided s symbols →
    u.lenW = s.lenW → u.placement = .disjoint → u.srcN = t.resultN → (symbols.length : Int) ≤ u.dstCap →
    (∀ j : Nat, (j : Int) < t.resultN → u.src.read? j = t.dst.read? j) →
    ∃ r, exec .encode u = .next r ∧ BufferSuccess u r symbols.length ∧
      ∀ j, (h : j < symbols.length) → r.dst.read? j = some (fwd ((rev symbols[j]).setWidth 5))

/-! ### Frames and rules over all commands -/

/-- The frame of every command: it changes STATUS, RESULT and DST only; DST never at or above DST_LEN; and DST not at
all unless it is ENCODE or DECODE (20_memory.md sections 1 and 2, 60_exceptions.md section 2). -/
def Obligations.CommandsKeepEverythingElse : Prop :=
  ∀ (i : Instr) (s t : State), exec i s = .next t →
    OnlyOutcomeAndDstChanged s t ∧ SameDstFrom s.dstCap.toNat s t ∧
    (i ≠ .encode → i ≠ .decode → OnlyOutcomeChanged s t)

/-- R36: DST after a command. On OK, ENCODE has written the first `ceil(8n / 5)` bytes and DECODE the first
`floor(5n / 8)`, and every byte from there on is as it was; on INVALID_CHAR, and on a fault, every byte below DST_LEN is
a fresh free value and every other is as it was; the other four commands, and a word that is no command, never touch
DST. -/
def Obligations.DstAfterEachOutcome : Prop :=
  (∀ (i : Instr) (s t : State), exec i s = .next t →
    (i = .encode → t.status = 0 → SameDstFrom ((8 * s.srcN.toNat + 4) / 5) s t ∧
      ∀ k, k < (8 * s.srcN.toNat + 4) / 5 → ∃ b, t.dst.read? k = some b) ∧
    (i = .decode → t.status = 0 → SameDstFrom (5 * s.srcN.toNat / 8) s t ∧
      ∀ k, k < 5 * s.srcN.toNat / 8 → ∃ b, t.dst.read? k = some b) ∧
    (i = .decode → t.status = 2 → FreshDstBelow s.dstCap.toNat s t ∧ SameDstFrom s.dstCap.toNat s t) ∧
    (t.faulted = true → i = .encode ∨ i = .decode →
      FreshDstBelow s.dstCap.toNat s t ∧ SameDstFrom s.dstCap.toNat s t) ∧
    (i ≠ .encode → i ≠ .decode → SameDst s t)) ∧
  (∀ (s t : State) (w : Word32) (rest : List HostAction), s.pending = .writeCmd w :: rest → s.faulted = false →
    isLegal w = false → step s = .next t → SameDst s t)

/-- R89: the two data-quality errors. INVALID_LENGTH is what ENCLEN and DECLEN end with, for a length that is negative,
too large or of an invalid remainder; INVALID_CHAR is what DECODE alone ends with, for bad content. Either leaves CAUSE
NONE, RESULT -1 and the block not FAULTED, so that the next command runs. -/
def Obligations.DataErrorsAreRecoverable : Prop :=
  ∀ (i : Instr) (s t : State), exec i s = .next t →
    (t.status = 1 ↔
      (i = .enclen ∧ (s.argN < 0 ∨ s.lenW.maxLen < (s.argN / 5) * 8 + ((s.argN % 5) * 8 + 4) / 5)) ∨
      (i = .declen ∧ (s.argN < 0 ∨ s.argN % 8 = 1 ∨ s.argN % 8 = 3 ∨ s.argN % 8 = 6))) ∧
    (t.status = 2 → i = .decode ∧ ∀ symbols, SrcProvided s symbols → s.srcN = symbols.length →
      ¬ (AllSymbolsValid symbols ∧ TailBitsZero symbols)) ∧
    (statusCode t.status ∈ [1#2, 2#2] → statusCause t.status = 0 ∧ t.resultN = -1 ∧ t.faulted = false ∧
      ∀ (w : Word32) (j : Instr) (rest : List HostAction), t.pending = .writeCmd w :: rest → decodeCmd w = .ok j →
        step t = exec j { t with pending := rest, cmd := w })

/-- The STATUS words each command can end with (10_state.md section 2): CODE and CAUSE as listed, every reserved bit
0. -/
def Obligations.StatusWordsOfEachCommand : Prop :=
  ∀ (i : Instr) (s t : State), exec i s = .next t →
    match i with
    | .symbolof _ => t.status = 0
    | .valueof _ => t.status = 0
    | .enclen => t.status ∈ [0#32, 1#32]
    | .declen => t.status ∈ [0#32, 1#32]
    | .encode => t.status ∈ [0#32, 0x23#32, 0x33#32, 0x53#32]
    | .decode => t.status ∈ [0#32, 2#32, 0x23#32, 0x33#32, 0x43#32, 0x53#32]

/-- A command's effect is a function of its operands (10_state.md section 1, 20_memory.md section 1): two blocks of the
same LEN_W that agree on ARG, SRC_LEN, DST_LEN and the SRC bytes below SRC_LEN end every command alike, whatever else
they hold: the same STATUS and RESULT, and the same effect on each DST byte, which is to keep it, to write the same
byte or to leave it unspecified. -/
def Obligations.EffectDependsOnOperandsOnly : Prop :=
  ∀ (i : Instr) (s s' : State), s.lenW = s'.lenW → s.placement = s'.placement →
    s.argN = s'.argN → s.srcN = s'.srcN → s.dstCap = s'.dstCap →
    (∀ k : Nat, (k : Int) < s.srcN → s.src.read? k = s'.src.read? k) →
    match exec i s, exec i s' with
    | .next t, .next t' => t.status = t'.status ∧ t.resultN = t'.resultN ∧
        ∀ k, (t.dstByte k = s.dstByte k ∧ t'.dstByte k = s'.dstByte k) ∨
          (∃ b, t.dst.read? k = some b ∧ t'.dst.read? k = some b) ∨
          (t.dstByte k = Config.freeDstByte (drawsAt s.dstDraws k + 1) k ∧
            t'.dstByte k = Config.freeDstByte (drawsAt s'.dstDraws k + 1) k)
    | .fault r, .fault r' => r = r'
    | .refused r, .refused r' => r = r'
    | _, _ => False

/-- R43: SRC and DST are distinct, so that only the host's own stores into SRC change a SRC byte; and a command over
buffers that a platform makes overlap is refused. -/
def Obligations.OverlapIsRefused : Prop :=
  (∀ s t : State, step s = .next t → (∀ bytes, s.pending.head? ≠ some (.fillSrc bytes)) →
    (∀ i b, s.pending.head? ≠ some (.storeSrc i b)) → t.src = s.src) ∧
  (∀ s : State, s.placement = .overlapping →
    exec .encode s = .refused .overlappingBuffers ∧ exec .decode s = .refused .overlappingBuffers)

/-- MODEL'S CHOICE (log entry 4): exec stops in two ways only. ENCODE and DECODE are refused exactly where the buffers
overlap; and where all their checks pass and the host has not provided every source byte (20_memory.md section 1 says
it provides them), they fault. -/
def Obligations.WhereExecStops : Prop :=
  (∀ (i : Instr) (s : State) (f : Fault), exec i s = .fault f →
    f = .sourceNotProvided ∧ s.placement = .disjoint ∧ 0 < s.srcN ∧
      (∃ k : Nat, (k : Int) < s.srcN ∧ s.src.read? k = none) ∧
      (i = .encode ∧ (8 * s.srcN + 4) / 5 ≤ s.dstCap ∨
        i = .decode ∧ ValidRemainder s.srcN.toNat ∧ 5 * s.srcN / 8 ≤ s.dstCap)) ∧
  (∀ s : State, s.placement = .disjoint → 0 < s.srcN →
    (∃ k : Nat, (k : Int) < s.srcN ∧ s.src.read? k = none) →
    ((8 * s.srcN + 4) / 5 ≤ s.dstCap → exec .encode s = .fault .sourceNotProvided) ∧
    (ValidRemainder s.srcN.toNat → 5 * s.srcN / 8 ≤ s.dstCap → exec .decode s = .fault .sourceNotProvided)) ∧
  (∀ (i : Instr) (s : State) (r : Refusal), exec i s = .refused r →
    r = .overlappingBuffers ∧ s.placement = .overlapping ∧ (i = .encode ∨ i = .decode))

/-! ### The host, FAULTED and reset -/

/-- R19: host accesses. A write of ARG, SRC_LEN or DST_LEN stores the whole word in every state; a write of RESULT or
STATUS is ignored; a read has no side effect and answers the whole word; a write of CMD while FAULTED is ignored
entirely. -/
def Obligations.HostRegisterAccess : Prop :=
  ∀ (s : State) (rest : List HostAction),
    (∀ v, s.pending = .writeArg v :: rest →
      step s = .next { s with pending := rest, arg := BitVec.ofInt s.lenW.bits v }) ∧
    (∀ v, s.pending = .writeSrcLen v :: rest →
      step s = .next { s with pending := rest, srcLen := BitVec.ofInt s.lenW.bits v }) ∧
    (∀ v, s.pending = .writeDstLen v :: rest →
      step s = .next { s with pending := rest, dstLen := BitVec.ofInt s.lenW.bits v }) ∧
    (∀ v, s.pending = .writeResult v :: rest → step s = .next { s with pending := rest }) ∧
    (∀ v, s.pending = .writeStatus v :: rest → step s = .next { s with pending := rest }) ∧
    (∀ r, s.pending = .readReg r :: rest → step s = .next { s with pending := rest }) ∧
    (∀ w, s.faulted = true → s.pending = .writeCmd w :: rest → step s = .next { s with pending := rest }) ∧
    (s.readReg .cmd = s.cmd ∧ s.readReg .arg = s.arg ∧ s.readReg .result = s.result ∧
      s.readReg .status = s.status ∧ s.readReg .srcLen = s.srcLen ∧ s.readReg .dstLen = s.dstLen)

/-- The host's own stores reach the buffer they name and nothing else (20_memory.md section 1, 30_encoding.md section
5): FILL from index 0, a store of one SRC byte, a store of one DST byte. -/
def Obligations.HostBufferStores : Prop :=
  ∀ (s : State) (rest : List HostAction), s.placement = .disjoint →
    (∀ bytes, s.pending = .fillSrc bytes :: rest →
      ∃ m, step s = .next { s with pending := rest, src := m } ∧
        ∀ i, m.read? i = if i < bytes.length then bytes[i]? else s.src.read? i) ∧
    (∀ i b, s.pending = .storeSrc i b :: rest →
      ∃ m, step s = .next { s with pending := rest, src := m } ∧
        ∀ j, m.read? j = if j = i then some b else s.src.read? j) ∧
    (∀ i b, s.pending = .storeDst i b :: rest →
      ∃ m, step s = .next { s with pending := rest, dst := m } ∧
        ∀ j, m.read? j = if j = i then some b else s.dst.read? j) ∧
    (∀ i j, s.pending = .readDst i j :: rest → step s = .next { s with pending := rest })

/-- R92: every step into FAULTED is a host write of CMD, and does exactly this: CODE is FAULTED, CAUSE is one of the
five causes, RESULT is -1, CMD holds the word, and if the word is ENCODE or DECODE every DST byte below DST_LEN is a
fresh free value; everything else is unchanged. -/
def Obligations.FaultEntryIsExact : Prop :=
  ∀ s t : State, step s = .next t → s.faulted = false → t.faulted = true →
    ∃ (w : Word32) (rest : List HostAction) (cause : Word32),
      s.pending = .writeCmd w :: rest ∧ cause ∈ [1#32, 2#32, 3#32, 4#32, 5#32] ∧
      FaultEntry { s with pending := rest, cmd := w } t (3#32 ||| cause <<< 4)
        (if w = 0x00000005#32 ∨ w = 0x00000006#32 then s.dstCap.toNat else 0)

/-- Which cause a step into FAULTED records (60_exceptions.md section 2): of the causes whose condition holds, the first
in the order ILLEGAL_COMMAND, BAD_BUFFER_LENGTH, EMPTY_SOURCE, BAD_SOURCE_LENGTH, DST_TOO_SMALL. -/
def Obligations.FaultCausesByPriority : Prop :=
  ∀ (s t : State) (w : Word32) (rest : List HostAction), s.pending = .writeCmd w :: rest → s.faulted = false →
    step s = .next t → t.faulted = true →
    t.status =
      if isLegal w = false then 0x13#32
      else if s.srcN < 0 ∨ s.dstCap < 0 then 0x23#32
      else if s.srcN = 0 then 0x33#32
      else if w = 0x00000006#32 ∧ (s.srcN % 8 = 1 ∨ s.srcN % 8 = 3 ∨ s.srcN % 8 = 6) then 0x43#32
      else 0x53#32

/-- R93: while FAULTED, a host write of CMD changes nothing at all, other host writes are stored as ever, and no act
but reset makes the block end a command or leave FAULTED. -/
def Obligations.FaultedIgnoresCommands : Prop :=
  ∀ (s : State) (rest : List HostAction), s.faulted = true →
    (∀ w, s.pending = .writeCmd w :: rest → step s = .next { s with pending := rest }) ∧
    (∀ v, s.pending = .writeArg v :: rest →
      step s = .next { s with pending := rest, arg := BitVec.ofInt s.lenW.bits v }) ∧
    (∀ v, s.pending = .writeSrcLen v :: rest →
      step s = .next { s with pending := rest, srcLen := BitVec.ofInt s.lenW.bits v }) ∧
    (∀ v, s.pending = .writeDstLen v :: rest →
      step s = .next { s with pending := rest, dstLen := BitVec.ofInt s.lenW.bits v }) ∧
    (∀ r, s.pending = .readReg r :: rest → step s = .next { s with pending := rest }) ∧
    (∀ t, step s = .next t → s.pending.head? ≠ some .reset →
      t.cmd = s.cmd ∧ t.resultN = s.resultN ∧ t.status = s.status ∧ ¬ t.successful)

/-- R94: nothing but reset leaves FAULTED. -/
def Obligations.OnlyResetLeavesFaulted : Prop :=
  (∀ s t : State, s.faulted = true → step s = .next t → t.faulted = false → s.pending.head? = some .reset) ∧
  (∀ (s : State) (rest : List HostAction), s.pending = .reset :: rest →
    ∃ t, step s = .next t ∧ t.faulted = false)

/-- R99: reset, at power-on for every LEN_W and as the host's act in every state. Every register takes its reset value,
so the block is not FAULTED; FWD and REV, as SYMBOLOF and VALUEOF answer them, SRC and DST are untouched; and it is the
only way out of FAULTED. -/
def Obligations.ResetValues : Prop :=
  (∀ w : LenW, (State.resetAt w).lenW = w ∧ (State.resetAt w).cmd = 0 ∧ (State.resetAt w).argN = 0 ∧
    (State.resetAt w).resultN = 0 ∧ (State.resetAt w).status = 0 ∧ (State.resetAt w).srcN = 0 ∧
    (State.resetAt w).dstCap = 0 ∧ (State.resetAt w).faulted = false) ∧
  (∀ (s : State) (rest : List HostAction), s.pending = .reset :: rest →
    ∃ t, step s = .next t ∧
      t = { s with pending := rest, cmd := 0, arg := 0, result := 0, status := 0, srcLen := 0, dstLen := 0 } ∧
      t.faulted = false ∧ (∀ i, t.dstByte i = s.dstByte i) ∧
      (∀ v u u', exec (.symbolof v) s = .next u → exec (.symbolof v) t = .next u' → u'.resultN = u.resultN) ∧
      (∀ c u u', exec (.valueof c) s = .next u → exec (.valueof c) t = .next u' → u'.resultN = u.resultN)) ∧
  (∀ s t : State, s.faulted = true → step s = .next t → t.faulted = false → s.pending.head? = some .reset)

/-- MODEL'S CHOICE (log entry 3): with no act of the host pending, a step changes nothing. -/
def Obligations.IdleBlockStays : Prop := ∀ s : State, s.pending = [] → step s = .next s

/-- The pseudo-instructions and their expansions, in the order written, for operands that fit (30_encoding.md section
5). -/
def Obligations.PseudoInstructionsExpand : Prop :=
  ∀ (w : LenW) (n cap : Int), WellFormed.lengthOperand w n = true → WellFormed.lengthOperand w cap = true →
    assemble w (.enclenOf n) = some [.writeArg n, .writeCmd 0x00000003#32] ∧
    assemble w (.declenOf n) = some [.writeArg n, .writeCmd 0x00000004#32] ∧
    assemble w (.encodeOf n cap) = some [.writeSrcLen n, .writeDstLen cap, .writeCmd 0x00000005#32] ∧
    assemble w (.decodeOf n cap) = some [.writeSrcLen n, .writeDstLen cap, .writeCmd 0x00000006#32]

/-- The assembler's command lines (30_encoding.md section 5): a SYMBOLOF line is accepted exactly for 0-31 and a
VALUEOF line exactly for 0-255, and each writes the word of its command; the bare lines ENCLEN, DECLEN, ENCODE and DECODE
are accepted and write the words 3, 4, 5 and 6; `.word` writes any word. -/
def Obligations.CommandLinesAssemble : Prop :=
  ∀ w : LenW,
    (∀ v : Int, (assemble w (.symbolof v)).isSome ↔ 0 ≤ v ∧ v ≤ 31) ∧
    (∀ c : Int, (assemble w (.valueof c)).isSome ↔ 0 ≤ c ∧ c ≤ 255) ∧
    (∀ v : Nat, v ≤ 31 → assemble w (.symbolof v) = some [.writeCmd (BitVec.ofNat 32 (1 + 256 * v))]) ∧
    (∀ c : Nat, c ≤ 255 → assemble w (.valueof c) = some [.writeCmd (BitVec.ofNat 32 (2 + 256 * c))]) ∧
    (assemble w .enclen = some [.writeCmd 0x00000003#32] ∧ assemble w .declen = some [.writeCmd 0x00000004#32] ∧
      assemble w .encode = some [.writeCmd 0x00000005#32] ∧ assemble w .decode = some [.writeCmd 0x00000006#32]) ∧
    (∀ x : Word32, assemble w (.word x) = some [.writeCmd x])

/-- Instances never interact (60_exceptions.md section 4): the order of a step of one and a step of another makes no
difference to any instance. MODEL'S CHOICE in two respects: instances whose buffers overlap, whose shared bytes take any
value by that section, are out of the model (log entry 12); and unspecified DST bytes are the same in either order,
because a draw depends on the instance's own history only (log entry 5). What is stated is that an instance is stepped
on its own state alone, and it holds whatever that step is. -/
def Obligations.InstancesDoNotInteract : Prop :=
  ∀ (instances afterJ afterK afterJK : List State) (j k : Nat), j ≠ k →
    stepOf instances j = .next afterJ → stepOf instances k = .next afterK → stepOf afterJ k = .next afterJK →
    stepOf afterK j = .next afterJK ∧ afterJ[k]? = instances[k]? ∧ afterJK[j]? = afterJ[j]? ∧
      afterJK[k]? = afterK[k]?

/-! ### The invariant -/

/-- The invariant holds right after reset, for every LEN_W. -/
def Obligations.InvariantAtReset : Prop := ∀ w : LenW, (State.resetAt w).Inv

/-- Every step keeps the invariant: the buffers' canonical form, STATUS as the spec lays it out, RESULT -1 exactly on
outcomes other than OK, and CMD still the word that explains STATUS (10_state.md section 2, 60_exceptions.md sections 1
and 2). -/
def Obligations.EveryStepKeepsTheInvariant : Prop := ∀ s t : State, s.Inv → step s = .next t → t.Inv

/-- No step changes the instance's parameters. That LEN_W, a parameter of the block (00_scope.md section 3), stands in
State and stays is log entry 1. MODEL'S CHOICE (log entry 6): where the platform has placed the buffers stays too; the
spec says nothing of a platform that moves them. -/
def Obligations.StepsKeepTheParameters : Prop :=
  ∀ s t : State, step s = .next t → t.lenW = s.lenW ∧ t.placement = s.placement
end

