-- ==== Sys2Proof/Laws/State.lean ====
section
/-! SUPPORT. One lemma per field per update of State, each true by unfolding the update, so that no proof about a field
unfolds an update. -/

namespace Sys2Proof.Machine

variable (s : State)

@[simp] theorem State.finish_lenW (c : Code) (r : Int) : (s.finish c r).lenW = s.lenW := rfl
@[simp] theorem State.finish_placement (c : Code) (r : Int) : (s.finish c r).placement = s.placement := rfl
@[simp] theorem State.finish_cmd (c : Code) (r : Int) : (s.finish c r).cmd = s.cmd := rfl
@[simp] theorem State.finish_arg (c : Code) (r : Int) : (s.finish c r).arg = s.arg := rfl
@[simp] theorem State.finish_result (c : Code) (r : Int) : (s.finish c r).result = s.word r := rfl
@[simp] theorem State.finish_status (c : Code) (r : Int) : (s.finish c r).status = statusWord c .none := rfl
@[simp] theorem State.finish_srcLen (c : Code) (r : Int) : (s.finish c r).srcLen = s.srcLen := rfl
@[simp] theorem State.finish_dstLen (c : Code) (r : Int) : (s.finish c r).dstLen = s.dstLen := rfl
@[simp] theorem State.finish_src (c : Code) (r : Int) : (s.finish c r).src = s.src := rfl
@[simp] theorem State.finish_dst (c : Code) (r : Int) : (s.finish c r).dst = s.dst := rfl
@[simp] theorem State.finish_dstDraws (c : Code) (r : Int) : (s.finish c r).dstDraws = s.dstDraws := rfl
@[simp] theorem State.finish_pending (c : Code) (r : Int) : (s.finish c r).pending = s.pending := rfl

@[simp] theorem State.finishLength_lenW (len : Option Nat) : (s.finishLength len).lenW = s.lenW := rfl
@[simp] theorem State.finishLength_placement (len : Option Nat) : (s.finishLength len).placement = s.placement := rfl
@[simp] theorem State.finishLength_cmd (len : Option Nat) : (s.finishLength len).cmd = s.cmd := rfl
@[simp] theorem State.finishLength_arg (len : Option Nat) : (s.finishLength len).arg = s.arg := rfl
@[simp] theorem State.finishLength_result (len : Option Nat) : (s.finishLength len).result = s.word (lengthResult len) := rfl
@[simp] theorem State.finishLength_status (len : Option Nat) : (s.finishLength len).status = statusWord (lengthCode len) .none := rfl
@[simp] theorem State.finishLength_srcLen (len : Option Nat) : (s.finishLength len).srcLen = s.srcLen := rfl
@[simp] theorem State.finishLength_dstLen (len : Option Nat) : (s.finishLength len).dstLen = s.dstLen := rfl
@[simp] theorem State.finishLength_src (len : Option Nat) : (s.finishLength len).src = s.src := rfl
@[simp] theorem State.finishLength_dst (len : Option Nat) : (s.finishLength len).dst = s.dst := rfl
@[simp] theorem State.finishLength_dstDraws (len : Option Nat) : (s.finishLength len).dstDraws = s.dstDraws := rfl
@[simp] theorem State.finishLength_pending (len : Option Nat) : (s.finishLength len).pending = s.pending := rfl

@[simp] theorem State.writeDst_lenW (bs : List Byte) : (s.writeDst bs).lenW = s.lenW := rfl
@[simp] theorem State.writeDst_placement (bs : List Byte) : (s.writeDst bs).placement = s.placement := rfl
@[simp] theorem State.writeDst_cmd (bs : List Byte) : (s.writeDst bs).cmd = s.cmd := rfl
@[simp] theorem State.writeDst_arg (bs : List Byte) : (s.writeDst bs).arg = s.arg := rfl
@[simp] theorem State.writeDst_result (bs : List Byte) : (s.writeDst bs).result = s.result := rfl
@[simp] theorem State.writeDst_status (bs : List Byte) : (s.writeDst bs).status = s.status := rfl
@[simp] theorem State.writeDst_srcLen (bs : List Byte) : (s.writeDst bs).srcLen = s.srcLen := rfl
@[simp] theorem State.writeDst_dstLen (bs : List Byte) : (s.writeDst bs).dstLen = s.dstLen := rfl
@[simp] theorem State.writeDst_src (bs : List Byte) : (s.writeDst bs).src = s.src := rfl
@[simp] theorem State.writeDst_dst (bs : List Byte) : (s.writeDst bs).dst = s.dst.writeBytes 0 bs := rfl
@[simp] theorem State.writeDst_dstDraws (bs : List Byte) : (s.writeDst bs).dstDraws = s.dstDraws := rfl
@[simp] theorem State.writeDst_pending (bs : List Byte) : (s.writeDst bs).pending = s.pending := rfl

@[simp] theorem State.havocDst_lenW (hi : Nat) : (s.havocDst hi).lenW = s.lenW := rfl
@[simp] theorem State.havocDst_placement (hi : Nat) : (s.havocDst hi).placement = s.placement := rfl
@[simp] theorem State.havocDst_cmd (hi : Nat) : (s.havocDst hi).cmd = s.cmd := rfl
@[simp] theorem State.havocDst_arg (hi : Nat) : (s.havocDst hi).arg = s.arg := rfl
@[simp] theorem State.havocDst_result (hi : Nat) : (s.havocDst hi).result = s.result := rfl
@[simp] theorem State.havocDst_status (hi : Nat) : (s.havocDst hi).status = s.status := rfl
@[simp] theorem State.havocDst_srcLen (hi : Nat) : (s.havocDst hi).srcLen = s.srcLen := rfl
@[simp] theorem State.havocDst_dstLen (hi : Nat) : (s.havocDst hi).dstLen = s.dstLen := rfl
@[simp] theorem State.havocDst_src (hi : Nat) : (s.havocDst hi).src = s.src := rfl
@[simp] theorem State.havocDst_dst (hi : Nat) : (s.havocDst hi).dst = s.dst.unfixBelow hi := rfl
@[simp] theorem State.havocDst_dstDraws (hi : Nat) : (s.havocDst hi).dstDraws = if hi = 0 then s.dstDraws else insertDraw hi s.dstDraws := rfl
@[simp] theorem State.havocDst_pending (hi : Nat) : (s.havocDst hi).pending = s.pending := rfl

@[simp] theorem State.raiseFault_lenW (b : Buffers) (k : Cause) : (s.raiseFault b k).lenW = s.lenW := rfl
@[simp] theorem State.raiseFault_placement (b : Buffers) (k : Cause) : (s.raiseFault b k).placement = s.placement := rfl
@[simp] theorem State.raiseFault_cmd (b : Buffers) (k : Cause) : (s.raiseFault b k).cmd = s.cmd := rfl
@[simp] theorem State.raiseFault_arg (b : Buffers) (k : Cause) : (s.raiseFault b k).arg = s.arg := rfl
@[simp] theorem State.raiseFault_result (b : Buffers) (k : Cause) : (s.raiseFault b k).result = s.word (-1) := rfl
@[simp] theorem State.raiseFault_status (b : Buffers) (k : Cause) : (s.raiseFault b k).status = statusWord .faulted k := rfl
@[simp] theorem State.raiseFault_srcLen (b : Buffers) (k : Cause) : (s.raiseFault b k).srcLen = s.srcLen := rfl
@[simp] theorem State.raiseFault_dstLen (b : Buffers) (k : Cause) : (s.raiseFault b k).dstLen = s.dstLen := rfl
@[simp] theorem State.raiseFault_src (b : Buffers) (k : Cause) : (s.raiseFault b k).src = s.src := rfl
@[simp] theorem State.raiseFault_dst (b : Buffers) (k : Cause) : (s.raiseFault b k).dst = (s.havocDst (b.havocBelow s)).dst := rfl
@[simp] theorem State.raiseFault_dstDraws (b : Buffers) (k : Cause) : (s.raiseFault b k).dstDraws = (s.havocDst (b.havocBelow s)).dstDraws := rfl
@[simp] theorem State.raiseFault_pending (b : Buffers) (k : Cause) : (s.raiseFault b k).pending = s.pending := rfl

@[simp] theorem State.hostReset_lenW : (s.hostReset).lenW = s.lenW := rfl
@[simp] theorem State.hostReset_placement : (s.hostReset).placement = s.placement := rfl
@[simp] theorem State.hostReset_cmd : (s.hostReset).cmd = 0 := rfl
@[simp] theorem State.hostReset_arg : (s.hostReset).arg = 0 := rfl
@[simp] theorem State.hostReset_result : (s.hostReset).result = 0 := rfl
@[simp] theorem State.hostReset_status : (s.hostReset).status = 0 := rfl
@[simp] theorem State.hostReset_srcLen : (s.hostReset).srcLen = 0 := rfl
@[simp] theorem State.hostReset_dstLen : (s.hostReset).dstLen = 0 := rfl
@[simp] theorem State.hostReset_src : (s.hostReset).src = s.src := rfl
@[simp] theorem State.hostReset_dst : (s.hostReset).dst = s.dst := rfl
@[simp] theorem State.hostReset_dstDraws : (s.hostReset).dstDraws = s.dstDraws := rfl
@[simp] theorem State.hostReset_pending : (s.hostReset).pending = s.pending := rfl

@[simp] theorem State.storeCmd_lenW (w : Word32) : (s.storeCmd w).lenW = s.lenW := rfl
@[simp] theorem State.storeCmd_placement (w : Word32) : (s.storeCmd w).placement = s.placement := rfl
@[simp] theorem State.storeCmd_cmd (w : Word32) : (s.storeCmd w).cmd = w := rfl
@[simp] theorem State.storeCmd_arg (w : Word32) : (s.storeCmd w).arg = s.arg := rfl
@[simp] theorem State.storeCmd_result (w : Word32) : (s.storeCmd w).result = s.result := rfl
@[simp] theorem State.storeCmd_status (w : Word32) : (s.storeCmd w).status = s.status := rfl
@[simp] theorem State.storeCmd_srcLen (w : Word32) : (s.storeCmd w).srcLen = s.srcLen := rfl
@[simp] theorem State.storeCmd_dstLen (w : Word32) : (s.storeCmd w).dstLen = s.dstLen := rfl
@[simp] theorem State.storeCmd_src (w : Word32) : (s.storeCmd w).src = s.src := rfl
@[simp] theorem State.storeCmd_dst (w : Word32) : (s.storeCmd w).dst = s.dst := rfl
@[simp] theorem State.storeCmd_dstDraws (w : Word32) : (s.storeCmd w).dstDraws = s.dstDraws := rfl
@[simp] theorem State.storeCmd_pending (w : Word32) : (s.storeCmd w).pending = s.pending := rfl

@[simp] theorem State.withPending_lenW (rest : List HostAction) : (s.withPending rest).lenW = s.lenW := rfl
@[simp] theorem State.withPending_placement (rest : List HostAction) : (s.withPending rest).placement = s.placement := rfl
@[simp] theorem State.withPending_cmd (rest : List HostAction) : (s.withPending rest).cmd = s.cmd := rfl
@[simp] theorem State.withPending_arg (rest : List HostAction) : (s.withPending rest).arg = s.arg := rfl
@[simp] theorem State.withPending_result (rest : List HostAction) : (s.withPending rest).result = s.result := rfl
@[simp] theorem State.withPending_status (rest : List HostAction) : (s.withPending rest).status = s.status := rfl
@[simp] theorem State.withPending_srcLen (rest : List HostAction) : (s.withPending rest).srcLen = s.srcLen := rfl
@[simp] theorem State.withPending_dstLen (rest : List HostAction) : (s.withPending rest).dstLen = s.dstLen := rfl
@[simp] theorem State.withPending_src (rest : List HostAction) : (s.withPending rest).src = s.src := rfl
@[simp] theorem State.withPending_dst (rest : List HostAction) : (s.withPending rest).dst = s.dst := rfl
@[simp] theorem State.withPending_dstDraws (rest : List HostAction) : (s.withPending rest).dstDraws = s.dstDraws := rfl
@[simp] theorem State.withPending_pending (rest : List HostAction) : (s.withPending rest).pending = rest := rfl

@[simp] theorem State.finish_argN (c : Code) (r : Int) : (s.finish c r).argN = s.argN := rfl
@[simp] theorem State.finish_srcN (c : Code) (r : Int) : (s.finish c r).srcN = s.srcN := rfl
@[simp] theorem State.finish_dstCap (c : Code) (r : Int) : (s.finish c r).dstCap = s.dstCap := rfl
@[simp] theorem State.finishLength_argN (len : Option Nat) : (s.finishLength len).argN = s.argN := rfl
@[simp] theorem State.finishLength_srcN (len : Option Nat) : (s.finishLength len).srcN = s.srcN := rfl
@[simp] theorem State.finishLength_dstCap (len : Option Nat) : (s.finishLength len).dstCap = s.dstCap := rfl
@[simp] theorem State.writeDst_argN (bs : List Byte) : (s.writeDst bs).argN = s.argN := rfl
@[simp] theorem State.writeDst_srcN (bs : List Byte) : (s.writeDst bs).srcN = s.srcN := rfl
@[simp] theorem State.writeDst_dstCap (bs : List Byte) : (s.writeDst bs).dstCap = s.dstCap := rfl
@[simp] theorem State.havocDst_argN (hi : Nat) : (s.havocDst hi).argN = s.argN := rfl
@[simp] theorem State.havocDst_srcN (hi : Nat) : (s.havocDst hi).srcN = s.srcN := rfl
@[simp] theorem State.havocDst_dstCap (hi : Nat) : (s.havocDst hi).dstCap = s.dstCap := rfl
@[simp] theorem State.raiseFault_argN (b : Buffers) (k : Cause) : (s.raiseFault b k).argN = s.argN := rfl
@[simp] theorem State.raiseFault_srcN (b : Buffers) (k : Cause) : (s.raiseFault b k).srcN = s.srcN := rfl
@[simp] theorem State.raiseFault_dstCap (b : Buffers) (k : Cause) : (s.raiseFault b k).dstCap = s.dstCap := rfl
@[simp] theorem State.storeCmd_argN (w : Word32) : (s.storeCmd w).argN = s.argN := rfl
@[simp] theorem State.storeCmd_srcN (w : Word32) : (s.storeCmd w).srcN = s.srcN := rfl
@[simp] theorem State.storeCmd_dstCap (w : Word32) : (s.storeCmd w).dstCap = s.dstCap := rfl
@[simp] theorem State.withPending_argN (rest : List HostAction) : (s.withPending rest).argN = s.argN := rfl
@[simp] theorem State.withPending_srcN (rest : List HostAction) : (s.withPending rest).srcN = s.srcN := rfl
@[simp] theorem State.withPending_dstCap (rest : List HostAction) : (s.withPending rest).dstCap = s.dstCap := rfl

@[simp] theorem State.havocCapacity_eq : s.havocCapacity = s.havocDst s.dstCap.toNat := rfl

end Sys2Proof.Machine
end

