-- ==== Sys2Proof/Laws/Ops.lean ====
section
/-! SUPPORT. What the shared operations do, said once: cells, draws, DST bytes and STATUS words. -/

namespace Sys2Proof.Machine

/-! ### Reading after writing -/

@[simp] theorem Memory.read?_nil (i : Nat) : Memory.read? [] i = none := rfl

theorem Memory.read?_write (m : Memory) (i j : Nat) (v : Byte) :
    (m.write i v).read? j = if j = i then some v else m.read? j := by
  induction m with
  | nil => rfl
  | cons c m ih =>
    obtain ⟨a, b⟩ := c
    simp only [Memory.write]
    split_ifs with h1 h2 h3 h4 <;> simp_all [Memory.read?]

@[simp] theorem Memory.read?_write_self (m : Memory) (i : Nat) (v : Byte) : (m.write i v).read? i = some v := by
  simp [Memory.read?_write]

theorem Memory.read?_write_other (m : Memory) {i j : Nat} (v : Byte) (h : j ≠ i) :
    (m.write i v).read? j = m.read? j := by
  simp [Memory.read?_write, h]

/-- What a write of consecutive bytes leaves at every index. -/
theorem Memory.read?_writeBytes (m : Memory) (i j : Nat) (bs : List Byte) :
    (m.writeBytes i bs).read? j = if i ≤ j ∧ j < i + bs.length then bs[j - i]? else m.read? j := by
  induction bs generalizing m i with
  | nil => simp only [Memory.writeBytes, List.length_nil]; split_ifs <;> [omega; rfl]
  | cons b bs ih =>
    rw [Memory.writeBytes, ih, Memory.read?_write]
    rcases Nat.lt_trichotomy j i with h | rfl | h
    · rw [if_neg (by omega), if_neg (by omega), if_neg (by simp; omega)]
    · rw [if_neg (by omega), if_pos rfl, if_pos (by simp)]; simp
    · obtain ⟨k, rfl⟩ : ∃ k, j = i + 1 + k := ⟨j - (i + 1), by omega⟩
      have e1 : i + 1 + k - (i + 1) = k := by omega
      have e2 : i + 1 + k - i = k + 1 := by omega
      rw [e1, e2, List.getElem?_cons_succ, if_neg (show ¬ i + 1 + k = i by omega)]
      by_cases hk : k < bs.length
      · rw [if_pos (by omega), if_pos (by simp; omega)]
      · rw [if_neg (by omega), if_neg (by simp; omega)]

/-- Reading consecutive bytes answers exactly when every one of them is there. -/
theorem Memory.readBytes?_eq_some (m : Memory) (i n : Nat) (bs : List Byte) :
    m.readBytes? i n = some bs ↔ bs.length = n ∧ ∀ k, (h : k < bs.length) → m.read? (i + k) = some bs[k] := by
  induction n generalizing i bs with
  | zero =>
    simp only [Memory.readBytes?, Option.some.injEq]
    constructor
    · rintro rfl; simp
    · rintro ⟨h, -⟩; exact (List.eq_nil_of_length_eq_zero h).symm
  | succ n ih =>
    rw [Memory.readBytes?]
    constructor
    · intro h
      split at h
      · cases h
      · rename_i b hb
        obtain ⟨cs, hcs, rfl⟩ := Option.map_eq_some_iff.1 h
        obtain ⟨hl, hr⟩ := (ih _ _).1 hcs
        refine ⟨by simp [hl], fun k hk => ?_⟩
        cases k with
        | zero => simpa using hb
        | succ k => simpa [Nat.add_assoc, Nat.add_comm 1 k] using hr k (by simpa using hk)
    · rintro ⟨hl, hr⟩
      cases bs with
      | nil => simp at hl
      | cons b bs =>
        have h0 := hr 0 (by simp)
        simp only [Nat.add_zero, List.getElem_cons_zero] at h0
        rw [h0]
        simp only [Option.map_eq_some_iff, List.cons.injEq, true_and, exists_eq_right]
        refine (ih _ _).2 ⟨by simpa using hl, fun k hk => ?_⟩
        have := hr (k + 1) (by simpa using hk)
        rwa [List.getElem_cons_succ, show i + (k + 1) = i + 1 + k by omega] at this

theorem Memory.read?_unfixBelow (m : Memory) (hi j : Nat) :
    (m.unfixBelow hi).read? j = if j < hi then none else m.read? j := by
  induction m with
  | nil => simp [Memory.unfixBelow]
  | cons c m ih =>
    obtain ⟨a, b⟩ := c
    simp only [Memory.unfixBelow] at ih ⊢
    by_cases ha : hi ≤ a
    · simp only [List.filter_cons, ha, decide_true, if_true, Memory.read?, ih]
      split_ifs <;> first | rfl | omega
    · simp only [List.filter_cons, ha, decide_false, Bool.false_eq_true, if_false, Memory.read?, ih]
      split_ifs <;> first | rfl | omega

/-! ### The canonical form is kept -/

theorem Memory.mem_write {m : Memory} {i : Nat} {v : Byte} {a : Nat}
    (h : a ∈ (m.write i v).map Prod.fst) : a = i ∨ a ∈ m.map Prod.fst := by
  induction m with
  | nil => simpa [Memory.write] using h
  | cons c m ih =>
    obtain ⟨c, d⟩ := c
    simp only [Memory.write] at h
    split_ifs at h with h1 h2
    · simpa using h
    · exact .inr (by simpa using h)
    · simp only [List.map_cons, List.mem_cons] at h ⊢
      rcases h with h | h
      · exact .inr (.inl h)
      · rcases ih h with h | h
        · exact .inl h
        · exact .inr (.inr h)

theorem Memory.wf_write {m : Memory} (h : m.wf) (i : Nat) (v : Byte) : (m.write i v).wf := by
  induction m with
  | nil => simp [Memory.write, Memory.wf]
  | cons c m ih =>
    obtain ⟨c, d⟩ := c
    obtain ⟨h1, h2⟩ := List.pairwise_cons.1 h
    simp only [Memory.write]
    split_ifs with h3 h4
    · refine List.pairwise_cons.2 ⟨fun a ha => ?_, h⟩
      rcases List.mem_cons.1 ha with rfl | ha
      · exact h3
      · exact Nat.lt_trans h3 (h1 a ha)
    · exact h
    · refine List.pairwise_cons.2 ⟨fun a ha => ?_, ih h2⟩
      rcases Memory.mem_write ha with rfl | ha
      · exact Nat.lt_of_le_of_ne (Nat.le_of_not_lt h3) (Ne.symm h4)
      · exact h1 a ha

theorem Memory.wf_writeBytes {m : Memory} (h : m.wf) (i : Nat) (bs : List Byte) : (m.writeBytes i bs).wf := by
  induction bs generalizing m i with
  | nil => exact h
  | cons b bs ih => exact ih (Memory.wf_write h i b) (i + 1)

theorem Memory.wf_unfixBelow {m : Memory} (h : m.wf) (hi : Nat) : (m.unfixBelow hi).wf :=
  List.Pairwise.sublist (List.Sublist.map _ List.filter_sublist) h

/-! ### Draws -/

theorem mem_insertDraw {cap c : Nat} {cs : List Nat} : c ∈ insertDraw cap cs ↔ c = cap ∨ c ∈ cs := by
  induction cs with
  | nil => simp [insertDraw]
  | cons d cs ih => simp only [insertDraw]; split_ifs <;> (simp_all; try tauto)

theorem insertDraw_rising {cs : List Nat} (h : cs.Pairwise (· ≤ ·)) (cap : Nat) :
    (insertDraw cap cs).Pairwise (· ≤ ·) := by
  induction cs with
  | nil => simp [insertDraw]
  | cons d cs ih =>
    obtain ⟨h1, h2⟩ := List.pairwise_cons.1 h
    simp only [insertDraw]
    split_ifs with hd
    · refine List.pairwise_cons.2 ⟨fun c hc => ?_, h⟩
      rcases List.mem_cons.1 hc with rfl | hc
      · exact hd
      · exact Nat.le_trans hd (h1 c hc)
    · refine List.pairwise_cons.2 ⟨fun c hc => ?_, ih h2⟩
      rcases mem_insertDraw.1 hc with rfl | hc
      · omega
      · exact h1 c hc

/-- A draw is counted once at every index below its capacity and nowhere else. -/
theorem drawsAt_insertDraw (cap : Nat) (cs : List Nat) (i : Nat) :
    drawsAt (insertDraw cap cs) i = drawsAt cs i + if i < cap then 1 else 0 := by
  induction cs with
  | nil => simp [insertDraw, drawsAt, List.countP_cons]
  | cons d cs ih =>
    simp only [drawsAt] at ih
    simp only [insertDraw]
    split_ifs at ih ⊢ <;> (simp_all [drawsAt, List.countP_cons]; try omega)

/-! ### DST bytes after each operation -/

theorem State.havocDst_dstByte (s : State) (hi i : Nat) :
    (s.havocDst hi).dstByte i =
      if i < hi then Config.freeDstByte (drawsAt s.dstDraws i + 1) i else s.dstByte i := by
  simp only [State.dstByte, State.havocDst_dst, State.havocDst_dstDraws, Memory.read?_unfixBelow]
  by_cases h0 : hi = 0
  · subst h0; simp
  · by_cases h : i < hi <;> simp [h, h0, drawsAt_insertDraw]

theorem State.writeDst_dstByte (s : State) (bs : List Byte) (i : Nat) :
    (s.writeDst bs).dstByte i = (bs[i]?).getD (s.dstByte i) := by
  simp only [State.dstByte, State.writeDst_dst, State.writeDst_dstDraws, Memory.read?_writeBytes]
  by_cases h : i < bs.length
  · simp [h]
  · simp [h]

@[simp] theorem State.finish_dstByte (s : State) (c : Code) (r : Int) (i : Nat) :
    (s.finish c r).dstByte i = s.dstByte i := rfl

@[simp] theorem State.finishLength_dstByte (s : State) (len : Option Nat) (i : Nat) :
    (s.finishLength len).dstByte i = s.dstByte i := rfl

@[simp] theorem State.storeCmd_dstByte (s : State) (w : Word32) (i : Nat) :
    (s.storeCmd w).dstByte i = s.dstByte i := rfl

@[simp] theorem State.hostReset_dstByte (s : State) (i : Nat) : s.hostReset.dstByte i = s.dstByte i := rfl

@[simp] theorem State.withPending_dstByte (s : State) (rest : List HostAction) (i : Nat) :
    (s.withPending rest).dstByte i = s.dstByte i := rfl

/-- Fault entry on DST (R92). -/
theorem State.raiseFault_dstByte (s : State) (b : Buffers) (k : Cause) (i : Nat) :
    (s.raiseFault b k).dstByte i =
      if i < b.havocBelow s then Config.freeDstByte (drawsAt s.dstDraws i + 1) i else s.dstByte i :=
  s.havocDst_dstByte _ i

/-- The source bytes are read exactly when the host has provided them (R32). -/
theorem State.readSrc_eq_some (s : State) (n : Nat) (bs : List Byte) :
    s.readSrc n = some bs ↔ bs.length = n ∧ SrcProvided s bs := by
  simp [State.readSrc, Memory.readBytes?_eq_some, SrcProvided]

/-! ### STATUS words -/

@[simp] theorem statusCode_statusWord (c : Code) (k : Cause) : statusCode (statusWord c k) = c.value := by
  cases c <;> cases k <;> decide

@[simp] theorem statusCause_statusWord (c : Code) (k : Cause) : statusCause (statusWord c k) = k.value := by
  cases c <;> cases k <;> decide

theorem statusWord_inj {c c' : Code} {k k' : Cause} : statusWord c k = statusWord c' k' ↔ c = c' ∧ k = k' := by
  cases c <;> cases k <;> cases c' <;> cases k' <;> decide

/-- Ending with a CODE other than FAULTED does not fault. -/
theorem State.finish_faulted (s : State) (c : Code) (r : Int) :
    (s.finish c r).faulted = (c == .faulted) := by
  cases c <;> simp [State.faulted] <;> decide

@[simp] theorem State.raiseFault_faulted (s : State) (b : Buffers) (k : Cause) : (s.raiseFault b k).faulted = true := by
  simp [State.faulted]

@[simp] theorem State.hostReset_faulted (s : State) : s.hostReset.faulted = false := by
  simp only [State.faulted, State.hostReset_status]; decide

/-! ### Signed readings -/

/-- An integer in the range of a length register is read back as itself. -/
theorem State.toInt_word (s : State) {v : Int} (h1 : -(s.lenW.maxLen + 1) ≤ v) (h2 : v ≤ s.lenW.maxLen) :
    (s.word v).toInt = v := by
  have h16 := s.lenW.atLeast16
  simp only [LenW.maxLen] at h1 h2
  rw [State.word, BitVec.toInt_ofInt]
  have hp : ((2 ^ s.lenW.bits : Nat) : Int) = 2 * 2 ^ (s.lenW.bits - 1) := by
    push_cast; rw [← pow_succ']; congr 1; omega
  exact Int.bmod_eq_of_le (by omega) (by omega)

/-- MAXLEN is at least 32767, since `LEN_W >= 16` (R7). -/
theorem maxLen_ge (w : LenW) : 32767 ≤ w.maxLen := by
  have h16 := w.atLeast16
  have : (2 : Int) ^ 15 ≤ 2 ^ (w.bits - 1) := pow_le_pow_right₀ (by norm_num) (by omega)
  simp only [LenW.maxLen]; omega

/-- RESULT after `finish`, for a result in the range of the register. -/
theorem State.finish_resultN (s : State) (c : Code) {r : Int} (h1 : -1 ≤ r) (h2 : r ≤ s.lenW.maxLen) :
    (s.finish c r).resultN = r :=
  s.toInt_word (by have := maxLen_ge s.lenW; omega) h2

/-- RESULT after a fault is -1 (R92). -/
@[simp] theorem State.raiseFault_resultN (s : State) (b : Buffers) (k : Cause) : (s.raiseFault b k).resultN = -1 :=
  s.toInt_word (by have := maxLen_ge s.lenW; omega) (by have := maxLen_ge s.lenW; omega)

/-- A signed register never exceeds MAXLEN (R7). -/
theorem toInt_le_maxLen (w : LenW) (x : BitVec w.bits) : x.toInt ≤ w.maxLen := by
  have h16 := w.atLeast16
  have hp : (2 : Nat) ^ w.bits = 2 * 2 ^ (w.bits - 1) := by
    rw [← pow_succ']; congr 1; omega
  have h1 := x.isLt
  have : ((2 : Int) ^ (w.bits - 1)) = ((2 ^ (w.bits - 1) : Nat) : Int) := by push_cast; rfl
  rw [BitVec.toInt_eq_toNat_cond, LenW.maxLen]
  split_ifs <;> omega

end Sys2Proof.Machine
end

