-- ==== Sys2Proof/Laws/Lengths.lean ====
section
/-! SUPPORT. The length functions in closed form (41_length.md). -/

namespace Sys2Proof.Machine

/-- E(n) is `ceil(8n / 5)` where that is a length, and INVALID_LEN otherwise. -/
theorem encodedLength_eq_some {w : LenW} {n : Int} {e : Nat} :
    encodedLength w n = some e ↔ 0 ≤ n ∧ e = (8 * n.toNat + 4) / 5 ∧ (e : Int) ≤ w.maxLen := by
  simp only [encodedLength]
  have key : n.toNat / 5 * 8 + (n.toNat % 5 * 8 + 4) / 5 = (8 * n.toNat + 4) / 5 := by omega
  rw [key]
  split_ifs with h1 h2
  · simp; omega
  · simp only [false_iff]; rintro ⟨-, rfl, h⟩; omega
  · simp only [Option.some.injEq]
    constructor
    · rintro rfl; exact ⟨by omega, rfl, by omega⟩
    · rintro ⟨-, h, -⟩; exact h.symm

theorem encodedLength_eq_none {w : LenW} {n : Int} :
    encodedLength w n = none ↔ n < 0 ∨ w.maxLen < (((8 * n.toNat + 4) / 5 : Nat) : Int) := by
  rw [← not_iff_not, ← ne_eq, Option.ne_none_iff_exists']
  constructor
  · rintro ⟨e, h⟩
    obtain ⟨h1, rfl, h3⟩ := encodedLength_eq_some.1 h
    omega
  · intro h
    exact ⟨_, encodedLength_eq_some.2 ⟨by omega, rfl, by omega⟩⟩

/-- The bytes of a tail are `floor(5r / 8)` for the valid remainders, and there are none for the others. -/
theorem tailBytes_eq_some {r u : Nat} (h : r < 8) :
    tailBytes r = some u ↔ ValidRemainder r ∧ u = 5 * r / 8 := by
  interval_cases r <;> simp [tailBytes, ValidRemainder, eq_comm]

/-- D(n) is `floor(5n / 8)` for the valid remainders, and INVALID_LEN otherwise. -/
theorem decodedLength_eq_some {n : Int} {d : Nat} :
    decodedLength n = some d ↔ 0 ≤ n ∧ ValidRemainder n.toNat ∧ d = 5 * n.toNat / 8 := by
  simp only [decodedLength]
  split_ifs with h1
  · simp; omega
  · have hr : n.toNat % 8 < 8 := Nat.mod_lt _ (by omega)
    simp only [Option.map_eq_some_iff, tailBytes_eq_some hr]
    constructor
    · rintro ⟨u, ⟨h2, rfl⟩, rfl⟩
      exact ⟨by omega, by simpa [ValidRemainder] using h2, by omega⟩
    · rintro ⟨-, h2, rfl⟩
      exact ⟨_, ⟨by simpa [ValidRemainder] using h2, rfl⟩, by omega⟩

theorem decodedLength_eq_none {n : Int} :
    decodedLength n = none ↔ n < 0 ∨ ¬ ValidRemainder n.toNat := by
  rw [← not_iff_not, ← ne_eq, Option.ne_none_iff_exists']
  constructor
  · rintro ⟨d, h⟩
    obtain ⟨h1, h2, -⟩ := decodedLength_eq_some.1 h
    simp only [h2, not_true, or_false]; omega
  · intro h
    simp only [not_or, not_not] at h
    exact ⟨_, decodedLength_eq_some.2 ⟨by omega, h.2, rfl⟩⟩

end Sys2Proof.Machine
end

