-- ==== Sys2Proof/Laws/Codec.lean ====
section
/-! SUPPORT. The codec in closed form: how long each output is, which bits of the source stream each element of it
holds, and when a source is rejected. -/

namespace Sys2Proof.Machine

/-! ### The encoder -/

@[simp] theorem encGroupOf_length (bs : List Byte) : (encGroupOf bs).length = 8 := rfl

/-- The symbols of a tail are `ceil(8r / 5)`. -/
theorem tailSymbols_eq {r : Nat} (h : r < 5) : tailSymbols r = (8 * r + 4) / 5 := by
  interval_cases r <;> rfl

theorem encodeGroups_length (q : Nat) (bytes : List Byte) (h : bytes.length / 5 = q) :
    (encodeGroups q bytes).length = (8 * bytes.length + 4) / 5 := by
  induction q generalizing bytes with
  | zero =>
    have hr : bytes.length < 5 := by omega
    simp only [encodeGroups, List.length_take, encGroupOf_length, tailSymbols_eq hr]
    omega
  | succ q ih =>
    have := ih (bytes.drop 5) (by simp; omega)
    simp only [encodeGroups, List.length_append, encGroupOf_length, this, List.length_drop]
    omega

@[simp] theorem encodeBytes_length (bytes : List Byte) :
    (encodeBytes bytes).length = (8 * bytes.length + 4) / 5 := by
  rw [encodeBytes, List.length_map, encodeGroups_length _ _ rfl]

/-- Bit by bit, symbol `j` of a group is the five bits from `5j` on of its five bytes (R78). -/
theorem encGroup_bit (b0 b1 b2 b3 b4 : Byte) (j k : Nat) (hj : j < 8) (hk : k < 5) :
    ((encGroup b0 b1 b2 b3 b4).getD j 0).getMsbD k =
      ([b0, b1, b2, b3, b4].getD ((5 * j + k) / 8) 0).getMsbD ((5 * j + k) % 8) := by
  have beyond : ∀ b : Byte, ∀ i, 8 ≤ i → b.getLsbD i = false := fun b i h => BitVec.getLsbD_of_ge b i h
  interval_cases j <;> interval_cases k <;>
    simp only [encGroup, low5, List.getD_cons_zero, List.getD_cons_succ, BitVec.getMsbD, BitVec.getLsbD_setWidth,
      BitVec.getLsbD_or, BitVec.getLsbD_shiftLeft, BitVec.getLsbD_ushiftRight, Nat.reduceMul, Nat.reduceAdd,
      Nat.reduceDiv, Nat.reduceMod, Nat.reduceSub, Nat.reduceLT, decide_true, decide_false, Bool.true_and,
      Bool.false_and, Bool.not_true, Bool.not_false, beyond, Nat.reduceLeDiff, Bool.or_false, Bool.false_or]

/-- The five bytes of a group, by index. -/
theorem getD_group5 (bs : List Byte) (i : Nat) (h : i < 5) :
    [bs.getD 0 0, bs.getD 1 0, bs.getD 2 0, bs.getD 3 0, bs.getD 4 0].getD i 0 = bs.getD i 0 := by
  interval_cases i <;> rfl

/-- Within a group, symbol `j` holds the five stream bits from `5j` on (R37). -/
theorem encGroupOf_bit (bs : List Byte) (j k : Nat) (hj : j < 8) (hk : k < 5) :
    ((encGroupOf bs).getD j 0).getMsbD k = byteStreamBit bs (5 * j + k) := by
  rw [encGroupOf, encGroup_bit _ _ _ _ _ j k hj hk, getD_group5 _ _ (by omega)]
  rfl

/-- The stream of what is left after a group starts 40 bits on. -/
theorem byteStreamBit_drop (bytes : List Byte) (p : Nat) :
    byteStreamBit (bytes.drop 5) p = byteStreamBit bytes (p + 40) := by
  simp only [byteStreamBit, List.getD_eq_getElem?_getD, List.getElem?_drop]
  rw [show (p + 40) / 8 = 5 + p / 8 by omega, show (p + 40) % 8 = p % 8 by omega]

/-- The first 40 bits of the stream are those of the first group. -/
theorem byteStreamBit_take (bytes : List Byte) (p : Nat) (h : p < 40) :
    byteStreamBit (bytes.take 5) p = byteStreamBit bytes p := by
  simp only [byteStreamBit, List.getD_eq_getElem?_getD]
  rw [List.getElem?_take_of_lt (by omega)]

/-- Symbol `j` of the output holds the five stream bits from `5j` on (R37). -/
theorem encodeGroups_bit (q : Nat) (bytes : List Byte) (hq : bytes.length / 5 = q) (j k : Nat)
    (hj : j < (8 * bytes.length + 4) / 5) (hk : k < 5) :
    ((encodeGroups q bytes).getD j 0).getMsbD k = byteStreamBit bytes (5 * j + k) := by
  induction q generalizing bytes j with
  | zero =>
    have hr : bytes.length < 5 := by omega
    rw [← encGroupOf_bit bytes j k (by omega) hk, encodeGroups, tailSymbols_eq hr]
    simp only [List.getD_eq_getElem?_getD]
    rw [List.getElem?_take_of_lt hj]
  | succ q ih =>
    rw [encodeGroups]
    by_cases h8 : j < 8
    · rw [List.getD_append _ _ _ _ (by simpa using h8), encGroupOf_bit _ _ _ h8 hk,
        byteStreamBit_take _ _ (by omega)]
    · obtain ⟨j, rfl⟩ : ∃ i, j = 8 + i := ⟨j - 8, by omega⟩
      rw [List.getD_append_right _ _ _ _ (by simp), encGroupOf_length, Nat.add_sub_cancel_left,
        ih (bytes.drop 5) (by simp; omega) j (by simp; omega), byteStreamBit_drop]
      congr 1; omega

/-! ### Looked-up entries -/

/-- Every entry of REV is a symbol value, 0-31, or INVALID (R69). -/
theorem revRom_entries : ∀ e ∈ revRom, e = 0xFF ∨ e.toNat < 32 := by
  have h : (revRom.all fun e => e == 0xFF || decide (e.toNat < 32)) = true := by decide +kernel
  intro e he
  simpa using List.all_eq_true.1 h e he

/-- Every valid entry of REV is a symbol value, 0-31 (R69). -/
theorem rev_toNat_lt {x : Byte} (h : rev x ≠ 0xFF) : (rev x).toNat < 32 := by
  refine (?_ : rev x = 0xFF ∨ (rev x).toNat < 32).resolve_left h
  rw [rev, List.getD_eq_getElem?_getD]
  cases hx : revRom[x.toNat]? with
  | none => exact .inl rfl
  | some e => exact revRom_entries e (List.mem_of_getElem? hx)

theorem foldl_or_invalid (xs : List Byte) (acc : Byte) (hacc : acc = 0xFF ∨ acc.toNat < 32) :
    ((xs.map rev).foldl (· ||| ·) acc = 0xFF ↔ acc = 0xFF ∨ ∃ x ∈ xs, rev x = 0xFF) ∧
    (((xs.map rev).foldl (· ||| ·) acc = 0xFF) ∨ ((xs.map rev).foldl (· ||| ·) acc).toNat < 32) := by
  induction xs generalizing acc with
  | nil => simpa using hacc
  | cons x xs ih =>
    have ones : ∀ b : Byte, b ||| 0xFF = 0xFF ∧ 0xFF ||| b = 0xFF :=
      fun b => ⟨BitVec.or_allOnes, BitVec.allOnes_or⟩
    simp only [List.map_cons, List.foldl_cons, List.mem_cons, exists_eq_or_imp]
    by_cases hx : rev x = 0xFF
    · have h := ih (acc ||| rev x) (.inl (by rw [hx]; exact (ones acc).1))
      have e : acc ||| rev x = 0xFF := by rw [hx]; exact (ones acc).1
      refine ⟨?_, h.2⟩
      rw [h.1]
      exact ⟨fun _ => .inr (.inl hx), fun _ => .inl e⟩
    · rcases hacc with rfl | hacc
      · have h := ih (0xFF ||| rev x) (.inl (ones _).2)
        refine ⟨?_, h.2⟩
        rw [h.1]
        exact ⟨fun _ => .inl rfl, fun _ => .inl (ones _).2⟩
      · have hlt : (acc ||| rev x).toNat < 32 := by
          rw [BitVec.toNat_or]
          exact Nat.or_lt_two_pow (n := 5) hacc (rev_toNat_lt hx)
        have h := ih (acc ||| rev x) (.inr hlt)
        have e1 : acc ||| rev x ≠ 0xFF := by intro e; rw [e] at hlt; revert hlt; decide
        have e2 : acc ≠ 0xFF := by rintro rfl; revert hacc; decide
        refine ⟨?_, h.2⟩
        rw [h.1]
        exact ⟨fun h => .inr (.inr (h.resolve_left e1)), fun h => .inr ((h.resolve_left e2).resolve_left hx)⟩

/-- The OR test finds an invalid symbol exactly when there is one (R83). -/
theorem invalidSeen_iff (xs : List Byte) : invalidSeen (xs.map rev) = true ↔ ¬ AllSymbolsValid xs := by
  rw [invalidSeen, beq_iff_eq, invalidEntry, (foldl_or_invalid xs 0 (.inr (by decide))).1]
  simp [AllSymbolsValid]

/-! ### The decoder -/

@[simp] theorem decGroupOf_length (cs : List Byte) : (decGroupOf cs).length = 5 := rfl

/-- Bit by bit, byte `j` of a group is the eight bits from `8j` on of its eight values (R82). -/
theorem decGroup_bit (c0 c1 c2 c3 c4 c5 c6 c7 : Byte) (h1 : c1.toNat < 32) (h2 : c2.toNat < 32) (h3 : c3.toNat < 32)
    (h4 : c4.toNat < 32) (h5 : c5.toNat < 32) (h6 : c6.toNat < 32) (h7 : c7.toNat < 32) (j k : Nat) (hj : j < 5)
    (hk : k < 8) :
    ((decGroup c0 c1 c2 c3 c4 c5 c6 c7).getD j 0).getMsbD k =
      ([c0, c1, c2, c3, c4, c5, c6, c7].getD ((8 * j + k) / 5) 0).getLsbD (4 - (8 * j + k) % 5) := by
  have high : ∀ c : Byte, c.toNat < 32 → ∀ i, 5 ≤ i → c.getLsbD i = false := fun c hc i hi =>
    Nat.testBit_lt_two_pow (Nat.lt_of_lt_of_le hc (Nat.pow_le_pow_right (show 0 < 2 by decide) hi))
  have m1 : ∀ i, i < 8 → (0x01#8).getLsbD i = decide (i < 1) := by decide
  have m3 : ∀ i, i < 8 → (0x03#8).getLsbD i = decide (i < 2) := by decide
  have m7 : ∀ i, i < 8 → (0x07#8).getLsbD i = decide (i < 3) := by decide
  have mF : ∀ i, i < 8 → (0x0F#8).getLsbD i = decide (i < 4) := by decide
  interval_cases j <;> interval_cases k <;>
    simp only [decGroup, List.getD_cons_zero, List.getD_cons_succ, BitVec.getMsbD, BitVec.getLsbD_or,
      BitVec.getLsbD_and, BitVec.getLsbD_shiftLeft, BitVec.getLsbD_ushiftRight, Nat.reduceMul, Nat.reduceAdd,
      Nat.reduceDiv, Nat.reduceMod, Nat.reduceSub, Nat.reduceLT, decide_true, decide_false, Bool.true_and,
      Bool.false_and, Bool.not_true, Bool.not_false, Bool.and_true, Bool.and_false, high _ h1, high _ h2, high _ h3,
      high _ h4, high _ h5, high _ h6, high _ h7, m1, m3, m7, mF, BitVec.ofNat_eq_ofNat, Nat.reduceLeDiff,
      Bool.or_false, Bool.false_or]

/-- The eight values of a group, by index. -/
theorem getD_group8 (cs : List Byte) (i : Nat) (h : i < 8) :
    [cs.getD 0 0, cs.getD 1 0, cs.getD 2 0, cs.getD 3 0, cs.getD 4 0, cs.getD 5 0, cs.getD 6 0, cs.getD 7 0].getD i 0 =
      cs.getD i 0 := by
  interval_cases i <;> rfl

/-- Within a group of values 0-31, byte `j` holds the eight bits of the values' stream from `8j` on (R37). -/
theorem decGroupOf_bit (cs : List Byte) (hc : ∀ i, (cs.getD i 0).toNat < 32) (j k : Nat) (hj : j < 5) (hk : k < 8) :
    ((decGroupOf cs).getD j 0).getMsbD k = (cs.getD ((8 * j + k) / 5) 0).getLsbD (4 - (8 * j + k) % 5) := by
  rw [decGroupOf, decGroup_bit _ _ _ _ _ _ _ _ (hc 1) (hc 2) (hc 3) (hc 4) (hc 5) (hc 6) (hc 7) j k hj hk,
    getD_group8 _ _ (by omega)]

theorem getD_map_rev (xs : List Byte) (i : Nat) (h : i < xs.length) :
    (xs.map rev).getD i 0 = rev (xs.getD i 0) := by
  simp [h]

theorem AllSymbolsValid.entry_lt {xs : List Byte} (hv : AllSymbolsValid xs) (i : Nat) :
    ((xs.map rev).getD i 0).toNat < 32 := by
  by_cases h : i < xs.length
  · rw [getD_map_rev xs i h]
    refine rev_toNat_lt (hv _ ?_)
    simp [h]
  · simp [Nat.not_lt.1 h]

theorem symbolStreamBit_drop (xs : List Byte) (p : Nat) :
    symbolStreamBit (xs.drop 8) p = symbolStreamBit xs (p + 40) := by
  simp only [symbolStreamBit, List.getD_eq_getElem?_getD, List.getElem?_drop]
  rw [show (p + 40) / 5 = 8 + p / 5 by omega, show (p + 40) % 5 = p % 5 by omega]

/-- Byte `j` of a valid group holds the eight stream bits from `8j` on. -/
theorem decGroupOf_streamBit {xs ys : List Byte} (hv : AllSymbolsValid xs)
    (hs : ∀ i, i < xs.length → xs.getD i 0 = ys.getD i 0) (j k : Nat) (hj : j < 5) (hk : k < 8)
    (hn : 8 * j + k < 5 * xs.length) :
    ((decGroupOf (xs.map rev)).getD j 0).getMsbD k = symbolStreamBit ys (8 * j + k) := by
  rw [decGroupOf_bit _ hv.entry_lt j k hj hk, getD_map_rev _ _ (by omega), hs _ (by omega)]
  rfl

theorem AllSymbolsValid_iff_take_drop (n : Nat) (xs : List Byte) :
    AllSymbolsValid xs ↔ AllSymbolsValid (xs.take n) ∧ AllSymbolsValid (xs.drop n) := by
  conv_lhs => rw [← List.take_append_drop n xs]
  simp only [AllSymbolsValid, List.mem_append, or_imp, forall_and]

/-- A full group has no tail bits: those of a longer source are those of what follows it. -/
theorem TailBitsZero_drop {xs : List Byte} (h : 8 ≤ xs.length) :
    TailBitsZero xs ↔ TailBitsZero (xs.drop 8) := by
  simp only [TailBitsZero, symbolStreamBit_drop, List.length_drop]
  constructor
  · intro hz p h1 h2
    exact hz _ (by omega) (by omega)
  · intro hz p h1 h2
    have := hz (p - 40) (by omega) (by omega)
    rwa [show p - 40 + 40 = p by omega] at this

/-- The mask test of a tail finds a set tail bit exactly when there is one (R84, R85). -/
theorem tailBitsSet_iff {xs : List Byte} (h8 : xs.length < 8) (hr : ValidRemainder xs.length) :
    tailBitsSet (xs.map rev) = false ↔ TailBitsZero xs := by
  have m2 : ∀ b : Byte, (b &&& 0x03 != 0) = false ↔ b.getLsbD 1 = false ∧ b.getLsbD 0 = false := by decide +kernel
  have m4 : ∀ b : Byte, (b &&& 0x0F != 0) = false ↔
      b.getLsbD 3 = false ∧ b.getLsbD 2 = false ∧ b.getLsbD 1 = false ∧ b.getLsbD 0 = false := by decide +kernel
  have m5 : ∀ b : Byte, (b &&& 0x01 != 0) = false ↔ b.getLsbD 0 = false := by decide +kernel
  have m7 : ∀ b : Byte, (b &&& 0x07 != 0) = false ↔
      b.getLsbD 2 = false ∧ b.getLsbD 1 = false ∧ b.getLsbD 0 = false := by decide +kernel
  match xs, h8, hr with
  | [], _, _ => simp [tailBitsSet, TailBitsZero, tailMask]
  | [a, b], _, _ =>
    refine (m2 (rev b)).trans ⟨fun h p h1 h2 => ?_, fun h => ⟨h 8 (by simp) (by simp), h 9 (by simp) (by simp)⟩⟩
    clear m2 m4 m5 m7; simp at h1 h2; interval_cases p <;> simp_all [symbolStreamBit]
  | [a, b, c, d], _, _ =>
    refine (m4 (rev d)).trans ⟨fun h p h1 h2 => ?_, fun h => ⟨h 16 (by simp) (by simp), h 17 (by simp) (by simp),
      h 18 (by simp) (by simp), h 19 (by simp) (by simp)⟩⟩
    clear m2 m4 m5 m7; simp at h1 h2; interval_cases p <;> simp_all [symbolStreamBit]
  | [a, b, c, d, e], _, _ =>
    refine (m5 (rev e)).trans ⟨fun h p h1 h2 => ?_, fun h => h 24 (by simp) (by simp)⟩
    clear m2 m4 m5 m7; simp at h1 h2; interval_cases p; simp_all [symbolStreamBit]
  | [a, b, c, d, e, f, g], _, _ =>
    refine (m7 (rev g)).trans ⟨fun h p h1 h2 => ?_, fun h => ⟨h 32 (by simp) (by simp), h 33 (by simp) (by simp),
      h 34 (by simp) (by simp)⟩⟩
    clear m2 m4 m5 m7; simp at h1 h2; interval_cases p <;> simp_all [symbolStreamBit]
  | [_], _, h => exact absurd h (by simp [ValidRemainder])
  | [_, _, _], _, h => exact absurd h (by simp [ValidRemainder])
  | [_, _, _, _, _, _], _, h => exact absurd h (by simp [ValidRemainder])

/-- What the tail comes to (R84, R85): nothing for a symbol outside the alphabet or a set tail bit, and otherwise the
first `floor(5r / 8)` bytes of the group. -/
theorem decodeTail_eq {xs : List Byte} (h8 : xs.length < 8) (hr : ValidRemainder xs.length) :
    (¬ (AllSymbolsValid xs ∧ TailBitsZero xs) → decodeTail xs = none) ∧
    (AllSymbolsValid xs ∧ TailBitsZero xs →
      decodeTail xs = some ((decGroupOf (xs.map rev)).take (5 * xs.length / 8))) := by
  have hu : tailBytes xs.length = some (5 * xs.length / 8) := (tailBytes_eq_some h8).2 ⟨hr, rfl⟩
  simp only [decodeTail, List.length_map, hu, Option.getD_some]
  constructor
  · intro h
    by_cases hv : AllSymbolsValid xs
    · have hi : ¬ invalidSeen (xs.map rev) = true := fun h' => (invalidSeen_iff xs).1 h' hv
      have hz : ¬ TailBitsZero xs := fun hz => h ⟨hv, hz⟩
      rw [← tailBitsSet_iff h8 hr, Bool.not_eq_false] at hz
      simp [hi, hz]
    · simp [(invalidSeen_iff xs).2 hv]
  · rintro ⟨hv, hz⟩
    have hi : ¬ invalidSeen (xs.map rev) = true := fun h' => (invalidSeen_iff xs).1 h' hv
    simp [hi, (tailBitsSet_iff h8 hr).2 hz]

theorem decodeFull_eq (xs : List Byte) :
    (¬ AllSymbolsValid xs → decodeFull xs = none) ∧
    (AllSymbolsValid xs → decodeFull xs = some (decGroupOf (xs.map rev))) := by
  simp only [decodeFull]
  constructor
  · intro h; simp [(invalidSeen_iff xs).2 h]
  · intro hv
    have hi : ¬ invalidSeen (xs.map rev) = true := fun h' => (invalidSeen_iff xs).1 h' hv
    simp [hi]

/-- A source is rejected exactly when a symbol is outside the alphabet or a tail bit is set (R87). -/
theorem decodeGroups_eq_none (q : Nat) (xs : List Byte) (hq : xs.length / 8 = q) (hr : ValidRemainder xs.length) :
    decodeGroups q xs = none ↔ ¬ (AllSymbolsValid xs ∧ TailBitsZero xs) := by
  induction q generalizing xs with
  | zero =>
    have h8 : xs.length < 8 := by omega
    rw [decodeGroups]
    refine ⟨fun h hv => ?_, (decodeTail_eq h8 hr).1⟩
    rw [(decodeTail_eq h8 hr).2 hv] at h
    cases h
  | succ q ih =>
    have hlen : 8 ≤ xs.length := by omega
    have ih := ih (xs.drop 8) (by simp; omega) (by simp [ValidRemainder] at hr ⊢; omega)
    rw [decodeGroups, AllSymbolsValid_iff_take_drop 8, TailBitsZero_drop hlen]
    by_cases hv : AllSymbolsValid (xs.take 8)
    · rw [(decodeFull_eq _).2 hv]
      simp only [Option.map_eq_none_iff, ih, hv, true_and]
    · rw [(decodeFull_eq _).1 hv]
      simp [hv]

/-- The length of a decoded output is `floor(5n / 8)` (R75), and its byte `j` holds the eight stream bits from `8j`
on (R37). -/
theorem decodeGroups_bit (q : Nat) (xs out : List Byte) (hq : xs.length / 8 = q) (hr : ValidRemainder xs.length)
    (h : decodeGroups q xs = some out) :
    out.length = 5 * xs.length / 8 ∧
    ∀ j k, j < out.length → k < 8 → (out.getD j 0).getMsbD k = symbolStreamBit xs (8 * j + k) := by
  induction q generalizing xs out with
  | zero =>
    have h8 : xs.length < 8 := by omega
    by_cases hv : AllSymbolsValid xs ∧ TailBitsZero xs
    · rw [decodeGroups, (decodeTail_eq h8 hr).2 hv] at h
      cases h
      have hlen : ((decGroupOf (xs.map rev)).take (5 * xs.length / 8)).length = 5 * xs.length / 8 := by
        simp; omega
      refine ⟨hlen, fun j k hj hk => ?_⟩
      rw [hlen] at hj
      rw [← decGroupOf_streamBit hv.1 (fun _ _ => rfl) j k (by omega) hk (by omega)]
      simp only [List.getD_eq_getElem?_getD]
      rw [List.getElem?_take_of_lt hj]
    · rw [decodeGroups, (decodeTail_eq h8 hr).1 hv] at h
      cases h
  | succ q ih =>
    have hlen : 8 ≤ xs.length := by omega
    rw [decodeGroups] at h
    by_cases hv : AllSymbolsValid (xs.take 8)
    · rw [(decodeFull_eq _).2 hv] at h
      obtain ⟨rest, hrest, rfl⟩ := Option.map_eq_some_iff.1 h
      obtain ⟨hl, hb⟩ := ih (xs.drop 8) rest (by simp; omega) (by simp [ValidRemainder] at hr ⊢; omega) hrest
      simp only [List.length_drop] at hl
      refine ⟨by simp; omega, fun j k hj hk => ?_⟩
      by_cases h5 : j < 5
      · rw [List.getD_append _ _ _ _ (by simpa using h5)]
        refine decGroupOf_streamBit hv (fun i hi => ?_) j k h5 hk (by simp; omega)
        simp only [List.length_take] at hi
        simp only [List.getD_eq_getElem?_getD]
        rw [List.getElem?_take_of_lt (by omega)]
      · obtain ⟨j, rfl⟩ : ∃ i, j = 5 + i := ⟨j - 5, by omega⟩
        rw [List.getD_append_right _ _ _ _ (by simp), decGroupOf_length, Nat.add_sub_cancel_left,
          hb j k (by simp at hj; omega) hk, symbolStreamBit_drop]
        congr 1; omega
    · rw [(decodeFull_eq _).1 hv] at h
      cases h

end Sys2Proof.Machine
end

