-- ==== Sys2Proof/Laws/Decode.lean ====
section
/-! SUPPORT. The fields of a command word as numbers, and decoding in those terms (30_encoding.md R50, R56). -/

namespace Sys2Proof

theorem fieldOp_toNat (w : Word32) : (fieldOp w).toNat = w.toNat % 16 := by
  simp [fieldOp, BitVec.extractLsb'_toNat]

theorem fieldRsv0_eq_zero (w : Word32) : fieldRsv0 w = 0 ↔ w.toNat / 16 % 16 = 0 := by
  rw [← BitVec.toNat_inj]; simp [fieldRsv0, BitVec.extractLsb'_toNat, Nat.shiftRight_eq_div_pow]

theorem fieldRsv1_eq_zero (w : Word32) : fieldRsv1 w = 0 ↔ w.toNat / 65536 = 0 := by
  have := w.isLt
  rw [← BitVec.toNat_inj]; simp [fieldRsv1, BitVec.extractLsb'_toNat, Nat.shiftRight_eq_div_pow]; omega

theorem fieldVHigh_eq_zero (w : Word32) : fieldVHigh w = 0 ↔ w.toNat / 8192 % 8 = 0 := by
  rw [← BitVec.toNat_inj]; simp [fieldVHigh, BitVec.extractLsb'_toNat, Nat.shiftRight_eq_div_pow]

theorem fieldImm8_eq (w : Word32) : fieldImm8 w = BitVec.ofNat 8 (w.toNat / 256 % 256) := by
  apply BitVec.eq_of_toNat_eq
  simp [fieldImm8, BitVec.extractLsb'_toNat, Nat.shiftRight_eq_div_pow]

theorem fieldImm8_eq_zero (w : Word32) : fieldImm8 w = 0 ↔ w.toNat / 256 % 256 = 0 := by
  rw [← BitVec.toNat_inj]; simp [fieldImm8, BitVec.extractLsb'_toNat, Nat.shiftRight_eq_div_pow]

theorem fieldV_eq (w : Word32) : fieldV w = BitVec.ofNat 5 (w.toNat / 256 % 32) := by
  apply BitVec.eq_of_toNat_eq
  simp [fieldV, BitVec.extractLsb'_toNat, Nat.shiftRight_eq_div_pow]

/-- Decoding in terms of the word as a number. -/
theorem decodeCmd_eq (w : Word32) :
    decodeCmd w =
      if w.toNat / 65536 ≠ 0 ∨ w.toNat / 16 % 16 ≠ 0 then .error .reservedBits
      else if w.toNat % 16 = 1 then
        if w.toNat / 8192 % 8 ≠ 0 then .error .symbolHighBits
        else .ok (.symbolof (BitVec.ofNat 5 (w.toNat / 256 % 32)))
      else if w.toNat % 16 = 2 then .ok (.valueof (BitVec.ofNat 8 (w.toNat / 256 % 256)))
      else if 3 ≤ w.toNat % 16 ∧ w.toNat % 16 ≤ 6 then
        if w.toNat / 256 % 256 ≠ 0 then .error .immediateNotZero
        else if w.toNat % 16 = 3 then .ok .enclen
        else if w.toNat % 16 = 4 then .ok .declen
        else if w.toNat % 16 = 5 then .ok .encode
        else .ok .decode
      else .error .reservedOp := by
  simp only [decodeCmd, withoutImmediate, ne_eq, fieldRsv1_eq_zero, fieldRsv0_eq_zero, fieldVHigh_eq_zero,
    fieldOp_toNat, fieldV_eq, fieldImm8_eq_zero]
  rw [fieldImm8_eq]
  have h16 : w.toNat % 16 < 16 := Nat.mod_lt _ (by decide)
  generalize w.toNat % 16 = op at *
  interval_cases op <;> simp

/-- Which words are legal, as numbers (R55). -/
theorem isLegal_iff (w : Word32) :
    isLegal w = true ↔
      w.toNat / 65536 = 0 ∧ w.toNat / 16 % 16 = 0 ∧
        ((w.toNat % 16 = 1 ∧ w.toNat / 8192 % 8 = 0) ∨ w.toNat % 16 = 2 ∨
          (3 ≤ w.toNat % 16 ∧ w.toNat % 16 ≤ 6 ∧ w.toNat / 256 % 256 = 0)) := by
  rw [isLegal, decodeCmd_eq]
  split_ifs <;> simp [Except.isOk, Except.toBool] <;> omega

theorem isLegal_of_ok {w : Word32} {i : Instr} (h : decodeCmd w = .ok i) : isLegal w = true := by
  simp [isLegal, h, Except.isOk, Except.toBool]

theorem isLegal_of_error {w : Word32} {r : Illegal} (h : decodeCmd w = .error r) : isLegal w = false := by
  simp [isLegal, h, Except.isOk, Except.toBool]

theorem encodeCmd_symbolof_toNat (v : SymbolValue) : (encodeCmd (.symbolof v)).toNat = 1 + 256 * v.toNat := by
  revert v; decide +kernel

theorem encodeCmd_valueof_toNat (c : Byte) : (encodeCmd (.valueof c)).toNat = 2 + 256 * c.toNat := by
  revert c; decide +kernel

end Sys2Proof
end

