-- ==== Sys2Proof/Laws/Exec.lean ====
section
/-! SUPPORT. What a command can do, said once for each: the meanings of ENCODE and DECODE taken apart, and what any
command that answers a next state has done. -/

namespace Sys2Proof.Machine

variable {s t : State}

/-! ### The contract checks -/

theorem encodeContract_badBufferLength (h : s.srcN < 0 ∨ s.dstCap < 0) :
    encodeContract s = .error .badBufferLength := by
  simp [encodeContract, h]

theorem encodeContract_emptySource (h : s.srcN = 0) (hc : 0 ≤ s.dstCap) :
    encodeContract s = .error .emptySource := by
  simp [encodeContract, h, Int.not_lt.2 hc]

/-- With a positive SRC_LEN and no negative DST_LEN, what is left is the comparison with E(n). -/
theorem encodeContract_of_pos (h : 0 < s.srcN) (hc : 0 ≤ s.dstCap) :
    encodeContract s =
      match encodedLength s.lenW s.srcN with
      | none => .error .dstTooSmall
      | some e => if s.dstCap < (e : Int) then .error .dstTooSmall else .ok e := by
  rw [encodeContract, if_neg (by omega)]
  exact if_neg (by omega)

theorem decodeContract_badBufferLength (h : s.srcN < 0 ∨ s.dstCap < 0) :
    decodeContract s = .error .badBufferLength := by
  simp [decodeContract, h]

theorem decodeContract_emptySource (h : s.srcN = 0) (hc : 0 ≤ s.dstCap) :
    decodeContract s = .error .emptySource := by
  simp [decodeContract, h, Int.not_lt.2 hc]

/-- With a positive SRC_LEN and no negative DST_LEN, what is left is D(n) and the comparison with it. -/
theorem decodeContract_of_pos (h : 0 < s.srcN) (hc : 0 ≤ s.dstCap) :
    decodeContract s =
      match decodedLength s.srcN with
      | none => .error .badSourceLength
      | some len => if s.dstCap < (len : Int) then .error .dstTooSmall else .ok len := by
  rw [decodeContract, if_neg (by omega)]
  exact if_neg (by omega)

theorem encodeContract_ok {e : Nat} (h : encodeContract s = .ok e) :
    0 < s.srcN ∧ 0 ≤ s.dstCap ∧ encodedLength s.lenW s.srcN = some e ∧ (e : Int) ≤ s.dstCap := by
  by_cases h1 : s.srcN < 0 ∨ s.dstCap < 0
  · simp [encodeContract_badBufferLength h1] at h
  by_cases h2 : s.srcN = 0
  · simp [encodeContract_emptySource h2 (by omega)] at h
  rw [encodeContract_of_pos (by omega) (by omega)] at h
  refine ⟨by omega, by omega, ?_⟩
  split at h
  · cases h
  · split_ifs at h with hc
    cases h
    exact ⟨by assumption, by omega⟩

theorem decodeContract_ok {len : Nat} (h : decodeContract s = .ok len) :
    0 < s.srcN ∧ 0 ≤ s.dstCap ∧ decodedLength s.srcN = some len ∧ (len : Int) ≤ s.dstCap := by
  by_cases h1 : s.srcN < 0 ∨ s.dstCap < 0
  · simp [decodeContract_badBufferLength h1] at h
  by_cases h2 : s.srcN = 0
  · simp [decodeContract_emptySource h2 (by omega)] at h
  rw [decodeContract_of_pos (by omega) (by omega)] at h
  refine ⟨by omega, by omega, ?_⟩
  split at h
  · cases h
  · split_ifs at h with hc
    cases h
    exact ⟨by assumption, by omega⟩

/-- The causes ENCODE can fault with (R90). -/
theorem encodeContract_error {cause : Cause} (h : encodeContract s = .error cause) :
    cause = .badBufferLength ∨ cause = .emptySource ∨ cause = .dstTooSmall := by
  simp only [encodeContract] at h
  split_ifs at h <;> (try split at h) <;> (try split_ifs at h) <;> cases h <;> simp

/-- The causes DECODE can fault with (R90). -/
theorem decodeContract_error {cause : Cause} (h : decodeContract s = .error cause) :
    cause = .badBufferLength ∨ cause = .emptySource ∨ cause = .badSourceLength ∨ cause = .dstTooSmall := by
  simp only [decodeContract] at h
  split_ifs at h <;> (try split at h) <;> (try split_ifs at h) <;> cases h <;> simp

/-! ### ENCODE and DECODE -/

theorem execEncode_of_error (hp : s.placement = .disjoint) {cause : Cause} (h : encodeContract s = .error cause) :
    execEncode s = .next (s.raiseFault .used cause) := by
  simp [execEncode, hp, h]

theorem execEncode_of_ok (hp : s.placement = .disjoint) {e : Nat} (h : encodeContract s = .ok e) {bytes : List Byte}
    (hb : s.readSrc s.srcN.toNat = some bytes) :
    execEncode s = .next ((s.writeDst (encodeBytes bytes)).finish .ok e) := by
  simp [execEncode, hp, h, hb]

theorem execDecode_of_error (hp : s.placement = .disjoint) {cause : Cause} (h : decodeContract s = .error cause) :
    execDecode s = .next (s.raiseFault .used cause) := by
  simp [execDecode, hp, h]

theorem execDecode_of_bad (hp : s.placement = .disjoint) {len : Nat} (h : decodeContract s = .ok len)
    {symbols : List Byte} (hb : s.readSrc s.srcN.toNat = some symbols) (hd : decodeBytes symbols = none) :
    execDecode s = .next (s.havocCapacity.finish .invalidChar (-1)) := by
  simp [execDecode, hp, h, hb, hd]

theorem execDecode_of_ok (hp : s.placement = .disjoint) {len : Nat} (h : decodeContract s = .ok len)
    {symbols bytes : List Byte} (hb : s.readSrc s.srcN.toNat = some symbols) (hd : decodeBytes symbols = some bytes) :
    execDecode s = .next ((s.writeDst bytes).finish .ok len) := by
  simp [execDecode, hp, h, hb, hd]

/-- Everything an ENCODE that answers a next state can have done. -/
theorem execEncode_next (h : execEncode s = .next t) :
    s.placement = .disjoint ∧
    ((∃ cause, encodeContract s = .error cause ∧ t = s.raiseFault .used cause) ∨
     (∃ e bytes, encodeContract s = .ok e ∧ s.readSrc s.srcN.toNat = some bytes ∧
        t = (s.writeDst (encodeBytes bytes)).finish .ok e)) := by
  cases hp : s.placement with
  | overlapping => simp [execEncode, hp] at h
  | disjoint =>
    refine ⟨rfl, ?_⟩
    cases hc : encodeContract s with
    | error cause =>
      rw [execEncode_of_error hp hc] at h
      cases h
      exact .inl ⟨cause, rfl, rfl⟩
    | ok e =>
      cases hb : s.readSrc s.srcN.toNat with
      | none => simp [execEncode, hp, hc, hb] at h
      | some bytes =>
        rw [execEncode_of_ok hp hc hb] at h
        cases h
        exact .inr ⟨e, bytes, rfl, rfl, rfl⟩

/-- Everything a DECODE that answers a next state can have done. -/
theorem execDecode_next (h : execDecode s = .next t) :
    s.placement = .disjoint ∧
    ((∃ cause, decodeContract s = .error cause ∧ t = s.raiseFault .used cause) ∨
     (∃ len symbols, decodeContract s = .ok len ∧ s.readSrc s.srcN.toNat = some symbols ∧
        ((decodeBytes symbols = none ∧ t = s.havocCapacity.finish .invalidChar (-1)) ∨
         (∃ bytes, decodeBytes symbols = some bytes ∧
            t = (s.writeDst bytes).finish .ok len)))) := by
  cases hp : s.placement with
  | overlapping => simp [execDecode, hp] at h
  | disjoint =>
    refine ⟨rfl, ?_⟩
    cases hc : decodeContract s with
    | error cause =>
      rw [execDecode_of_error hp hc] at h
      cases h
      exact .inl ⟨cause, rfl, rfl⟩
    | ok len =>
      cases hb : s.readSrc s.srcN.toNat with
      | none => simp [execDecode, hp, hc, hb] at h
      | some symbols =>
        refine .inr ⟨len, symbols, rfl, rfl, ?_⟩
        cases hd : decodeBytes symbols with
        | none =>
          rw [execDecode_of_bad hp hc hb hd] at h
          cases h
          exact .inl ⟨rfl, rfl⟩
        | some bytes =>
          rw [execDecode_of_ok hp hc hb hd] at h
          cases h
          exact .inr ⟨bytes, rfl, rfl⟩

/-! ### The host's acts -/

/-- A word that decodes, written to a block that is not FAULTED, runs its command. -/
theorem issueCommand_of_ok {w : Word32} {i : Instr} (hf : s.faulted = false) (hd : decodeCmd w = .ok i) :
    issueCommand w s = exec i (s.storeCmd w) := by
  simp [issueCommand, hf, hd]

/-- An illegal word, written to a block that is not FAULTED, faults. -/
theorem issueCommand_of_illegal {w : Word32} {r : Illegal} (hf : s.faulted = false) (hd : decodeCmd w = .error r) :
    issueCommand w s = .next ((s.storeCmd w).raiseFault .unused .illegalCommand) := by
  simp [issueCommand, hf, hd]

/-- A word written while FAULTED is ignored. -/
theorem issueCommand_of_faulted {w : Word32} (hf : s.faulted = true) : issueCommand w s = .next s := by
  simp [issueCommand, hf]

/-- A step is the host's first pending act, done with it taken off the list. -/
theorem step_of_pending {a : HostAction} {rest : List HostAction}
    (h : s.pending = a :: rest) : step s = perform (s.withPending rest) a := by
  simp [step, runNext, h]

/-- A step with nothing pending changes nothing. -/
theorem step_of_idle (h : s.pending = []) : step s = .next s := by
  simp [step, runNext, h]

end Sys2Proof.Machine
end

