-- ==== Sys2Proof/Laws/Step.lean ====
section
/-! SUPPORT. Everything a command and a step can do, said once: a proof over every step takes its cases from here and
unfolds neither. -/

namespace Sys2Proof.Machine

variable {s t : State}

theorem rev_toNat_le (c : Byte) : (rev c).toNat ≤ 255 := by have := (rev c).isLt; omega

theorem fwd_toNat_le (v : SymbolValue) : (fwd v).toNat ≤ 255 := by have := (fwd v).isLt; omega

/-- A fault of a command that does not use the buffers changes STATUS and RESULT only (R92). -/
theorem State.raiseFault_unused (s : State) (cause : Cause) :
    s.raiseFault .unused cause = { s with status := statusWord .faulted cause, result := s.word (-1) } := by
  have h : s.dst.unfixBelow 0 = s.dst := by simp [Memory.unfixBelow]
  simp [State.raiseFault, Buffers.havocBelow, State.havocDst, h, State.word]

/-- The ways a command can end with a next state. -/
inductive CommandEnd (i : Instr) (s : State) : State → Prop where
  /-- SYMBOLOF or VALUEOF: a table entry and OK. -/
  | entry (value : Nat) (small : value ≤ 255) (command : (∃ v, i = .symbolof v) ∨ ∃ c, i = .valueof c) :
      CommandEnd i s (s.finish .ok value)
  /-- ENCLEN or DECLEN: a length and OK. -/
  | length (len : Nat) (fits : (len : Int) ≤ s.lenW.maxLen) (command : i = .enclen ∨ i = .declen) :
      CommandEnd i s (s.finish .ok len)
  /-- ENCLEN or DECLEN: no length. -/
  | invalidLength (command : i = .enclen ∨ i = .declen) : CommandEnd i s (s.finish .invalidLength (-1))
  /-- ENCODE or DECODE: as many bytes as RESULT says, within the capacity. -/
  | wrote (bytes : List Byte) (fits : (bytes.length : Int) ≤ s.dstCap) (apart : s.placement = .disjoint)
      (command : i = .encode ∨ i = .decode) : CommandEnd i s ((s.writeDst bytes).finish .ok bytes.length)
  /-- DECODE: bad content. -/
  | invalidChar (apart : s.placement = .disjoint) (command : i = .decode) :
      CommandEnd i s ((s.havocDst s.dstCap.toNat).finish .invalidChar (-1))
  /-- ENCODE or DECODE: a contract violation. -/
  | fault (cause : Cause) (known : cause ∈ [Cause.badBufferLength, .emptySource, .badSourceLength, .dstTooSmall])
      (apart : s.placement = .disjoint) (command : i = .decode ∨ i = .encode ∧ cause ≠ .badSourceLength) :
      CommandEnd i s (s.raiseFault .used cause)

/-- The number of bytes DECODE writes is `floor(5n / 8)`. -/
theorem decodeBytes_length {symbols bytes : List Byte} (hr : ValidRemainder symbols.length)
    (h : decodeBytes symbols = some bytes) : bytes.length = 5 * symbols.length / 8 :=
  (decodeGroups_bit _ symbols bytes rfl hr h).1

/-- Every command that answers a next state ended in one of these ways. -/
theorem exec_next {i : Instr} (h : exec i s = .next t) : CommandEnd i s t := by
  cases i with
  | symbolof v => cases h; exact .entry _ (fwd_toNat_le v) (.inl ⟨v, rfl⟩)
  | valueof c => cases h; exact .entry _ (rev_toNat_le c) (.inr ⟨c, rfl⟩)
  | enclen =>
    cases h
    cases hl : encodedLength s.lenW s.argN with
    | none => exact .invalidLength (.inl rfl)
    | some e => exact .length e (encodedLength_eq_some.1 hl).2.2 (.inl rfl)
  | declen =>
    cases h
    cases hl : decodedLength s.argN with
    | none => exact .invalidLength (.inr rfl)
    | some d =>
      obtain ⟨h1, -, h3⟩ := decodedLength_eq_some.1 hl
      have h4 : s.argN ≤ s.lenW.maxLen := toInt_le_maxLen _ _
      exact .length d (by omega) (.inr rfl)
  | encode =>
    obtain ⟨hp, ⟨cause, hc, rfl⟩ | ⟨e, bytes, hc, hb, rfl⟩⟩ := execEncode_next h
    · rcases encodeContract_error hc with rfl | rfl | rfl <;> exact .fault _ (by decide) hp (.inr ⟨rfl, by decide⟩)
    · obtain ⟨h1, -, h3, h4⟩ := encodeContract_ok hc
      have hlen := ((s.readSrc_eq_some _ _).1 hb).1
      have he : e = (encodeBytes bytes).length := by
        rw [encodeBytes_length, hlen]; exact (encodedLength_eq_some.1 h3).2.1
      subst he
      exact .wrote _ h4 hp (.inl rfl)
  | decode =>
    obtain ⟨hp, ⟨cause, hc, rfl⟩ | ⟨len, symbols, hc, hb, ⟨-, rfl⟩ | ⟨bytes, hd, rfl⟩⟩⟩ := execDecode_next h
    · rcases decodeContract_error hc with rfl | rfl | rfl | rfl <;> exact .fault _ (by decide) hp (.inl rfl)
    · exact .invalidChar hp rfl
    · obtain ⟨h1, -, h3, h4⟩ := decodeContract_ok hc
      have hlen := ((s.readSrc_eq_some _ _).1 hb).1
      obtain ⟨-, hr, hl⟩ := decodedLength_eq_some.1 h3
      have he : len = bytes.length := by rw [decodeBytes_length (by rwa [hlen]) hd, hlen, hl]
      subst he
      exact .wrote _ h4 hp (.inr rfl)

/-- The ways a step can end with a next state. -/
inductive StepEnd (s : State) : State → Prop where
  /-- Nothing pending. -/
  | idle (none : s.pending = []) : StepEnd s s
  /-- A read, a write of RESULT or STATUS, or a write of CMD while FAULTED. -/
  | noEffect (a : HostAction) (rest : List HostAction) (act : s.pending = a :: rest)
      (ignored : s.faulted = true ∨ ∀ w, a ≠ .writeCmd w) (notReset : a ≠ .reset) : StepEnd s (s.withPending rest)
  /-- A write of ARG, SRC_LEN or DST_LEN. -/
  | register (a : HostAction) (rest : List HostAction) (act : s.pending = a :: rest) (notReset : a ≠ .reset)
      (arg srcLen dstLen : BitVec s.lenW.bits) :
      StepEnd s { s with pending := rest, arg := arg, srcLen := srcLen, dstLen := dstLen }
  /-- A store into SRC or DST. -/
  | buffer (a : HostAction) (rest : List HostAction) (act : s.pending = a :: rest) (notReset : a ≠ .reset)
      (apart : s.placement = .disjoint) (src dst : Memory) (srcKeeps : s.src.wf → src.wf)
      (dstKeeps : s.dst.wf → dst.wf) : StepEnd s { s with pending := rest, src := src, dst := dst }
  /-- Reset. -/
  | reset (rest : List HostAction) (act : s.pending = .reset :: rest) : StepEnd s (s.withPending rest).hostReset
  /-- A write of an illegal word to CMD. -/
  | illegal (w : Word32) (rest : List HostAction) (act : s.pending = .writeCmd w :: rest) (live : s.faulted = false)
      (word : isLegal w = false) : StepEnd s (((s.withPending rest).storeCmd w).raiseFault .unused .illegalCommand)
  /-- A write of a command's word to CMD. -/
  | command {u : State} (w : Word32) (rest : List HostAction) (i : Instr) (act : s.pending = .writeCmd w :: rest)
      (live : s.faulted = false) (word : decodeCmd w = .ok i) (ends : CommandEnd i ((s.withPending rest).storeCmd w) u) :
      StepEnd s u

/-- A store into a buffer that answers a next state was to a block whose buffers lie apart. -/
theorem storeBuffer_next {u : State} (h : storeBuffer s u = .next t) : s.placement = .disjoint ∧ t = u := by
  cases hp : s.placement with
  | overlapping => simp [storeBuffer, hp] at h
  | disjoint => simp only [storeBuffer, hp] at h; cases h; exact ⟨rfl, rfl⟩

/-- Every step that answers a next state ended in one of these ways. -/
theorem step_next (h : step s = .next t) : StepEnd s t := by
  cases hp : s.pending with
  | nil => rw [step_of_idle hp] at h; cases h; exact .idle hp
  | cons a rest =>
    rw [step_of_pending hp] at h
    cases a with
    | writeCmd w =>
      simp only [perform] at h
      cases hf : s.faulted with
      | true =>
        rw [issueCommand_of_faulted (s := s.withPending rest) hf] at h
        cases h
        exact .noEffect _ rest hp (.inl hf) (by simp)
      | false =>
        cases hd : decodeCmd w with
        | error r =>
          rw [issueCommand_of_illegal (s := s.withPending rest) hf hd] at h
          cases h
          exact .illegal w rest hp hf (isLegal_of_error hd)
        | ok i =>
          rw [issueCommand_of_ok (s := s.withPending rest) hf hd] at h
          exact .command w rest i hp hf hd (exec_next h)
    | writeArg v => cases h; exact .register _ rest hp (by simp) (s.word v) s.srcLen s.dstLen
    | writeSrcLen v => cases h; exact .register _ rest hp (by simp) s.arg (s.word v) s.dstLen
    | writeDstLen v => cases h; exact .register _ rest hp (by simp) s.arg s.srcLen (s.word v)
    | writeResult v => cases h; exact .noEffect _ rest hp (.inr (by simp)) (by simp)
    | writeStatus v => cases h; exact .noEffect _ rest hp (.inr (by simp)) (by simp)
    | readReg r => cases h; exact .noEffect _ rest hp (.inr (by simp)) (by simp)
    | readDst i j => cases h; exact .noEffect _ rest hp (.inr (by simp)) (by simp)
    | fillSrc bytes =>
      obtain ⟨hd, rfl⟩ := storeBuffer_next h
      exact .buffer _ rest hp (by simp) hd _ s.dst (fun hw => Memory.wf_writeBytes hw _ _) id
    | storeSrc i b =>
      obtain ⟨hd, rfl⟩ := storeBuffer_next h
      exact .buffer _ rest hp (by simp) hd _ s.dst (fun hw => Memory.wf_write hw _ _) id
    | storeDst i b =>
      obtain ⟨hd, rfl⟩ := storeBuffer_next h
      exact .buffer _ rest hp (by simp) hd s.src _ id (fun hw => Memory.wf_write hw _ _)
    | reset => cases h; exact .reset rest hp

end Sys2Proof.Machine
end

