-- ==== Sys2Proof/Laws/Endings.lean ====
section
/-! SUPPORT. The endings of commands in the words of Safety.lean, and reads of the source. -/

namespace Sys2Proof.Machine

variable {s : State}

/-! ### Reading the source -/

/-- The bytes the host has provided are the bytes a command reads. -/
theorem readSrc_of_provided {bytes : List Byte} (hs : SrcProvided s bytes) (hn : s.srcN = bytes.length) :
    s.readSrc s.srcN.toNat = some bytes :=
  (s.readSrc_eq_some _ _).2 ⟨by rw [hn]; simp, hs⟩

/-- A read of several bytes fails only where one of them is not there. -/
theorem Memory.readBytes?_eq_none {m : Memory} {i n : Nat} :
    m.readBytes? i n = none ↔ ∃ k, k < n ∧ m.read? (i + k) = none := by
  induction n generalizing i with
  | zero => simp [Memory.readBytes?]
  | succ n ih =>
    rw [Memory.readBytes?]
    cases hb : m.read? i with
    | none => exact ⟨fun _ => ⟨0, by omega, hb⟩, fun _ => rfl⟩
    | some b =>
      simp only [Option.map_eq_none_iff, ih]
      constructor
      · rintro ⟨k, hk, h⟩
        exact ⟨k + 1, by omega, by rw [← h]; congr 1; omega⟩
      · rintro ⟨k, hk, h⟩
        cases k with
        | zero => rw [Nat.add_zero, hb] at h; cases h
        | succ k => exact ⟨k, by omega, by rw [← h]; congr 1; omega⟩

/-- Memories that agree on a range read alike there. -/
theorem Memory.readBytes?_congr {m m' : Memory} {i n : Nat}
    (h : ∀ k, i ≤ k → k < i + n → m.read? k = m'.read? k) : m.readBytes? i n = m'.readBytes? i n := by
  induction n generalizing i with
  | zero => rfl
  | succ n ih =>
    rw [Memory.readBytes?, Memory.readBytes?, h i (by omega) (by omega), ih fun k h1 h2 => h k (by omega) (by omega)]

/-- A byte that was just written. -/
theorem Memory.read?_writeBytes_zero (m : Memory) (bytes : List Byte) (j : Nat) (h : j < bytes.length) :
    (m.writeBytes 0 bytes).read? j = some bytes[j] := by
  rw [Memory.read?_writeBytes, if_pos (by omega)]; simp [h]

/-! ### Endings -/

theorem freshDstBelow_havocDst (s : State) (hi : Nat) : FreshDstBelow hi s (s.havocDst hi) := by
  intro i h; rw [State.havocDst_dstByte, if_pos h]

theorem sameDstFrom_havocDst (s : State) (hi : Nat) : SameDstFrom hi s (s.havocDst hi) := by
  intro i h; rw [State.havocDst_dstByte, if_neg (Nat.not_lt.2 h)]

/-- A fault is fault entry, with DST below DST_LEN fresh if the command uses the buffers. -/
theorem faultEntry_raiseFault (s : State) (b : Buffers) (cause : Cause) :
    FaultEntry s (s.raiseFault b cause) (statusWord .faulted cause) (b.havocBelow s) :=
  ⟨⟨_, _, _, _, rfl⟩, rfl, State.raiseFault_resultN .., freshDstBelow_havocDst s _, sameDstFrom_havocDst s _⟩

/-- Writing within the capacity and ending OK is success. -/
theorem bufferSuccess_finish (s : State) (bytes : List Byte) (h : (bytes.length : Int) ≤ s.dstCap) :
    BufferSuccess s ((s.writeDst bytes).finish .ok (bytes.length : Int)) bytes.length := by
  have hm : s.dstCap ≤ s.lenW.maxLen := toInt_le_maxLen s.lenW s.dstLen
  refine ⟨⟨_, _, _, _, rfl⟩, by simp only [State.finish_status]; decide, ?_, ?_⟩
  · exact State.finish_resultN _ _ (by omega) (by show (bytes.length : Int) ≤ s.lenW.maxLen; omega)
  · intro i hi
    simp [State.writeDst_dstByte, hi]

/-- ENCODE's checks pass. -/
theorem encodeContract_of_fits {n : Nat} (hpos : 0 < n) (hn : s.srcN = n)
    (hc : (((8 * n + 4) / 5 : Nat) : Int) ≤ s.dstCap) : encodeContract s = .ok ((8 * n + 4) / 5) := by
  have hm : s.dstCap ≤ s.lenW.maxLen := toInt_le_maxLen s.lenW s.dstLen
  have hE : encodedLength s.lenW s.srcN = some ((8 * n + 4) / 5) := by
    rw [encodedLength_eq_some, hn]; simp; omega
  rw [encodeContract_of_pos (by omega) (by omega), hE]
  simp only []
  rw [if_neg (by omega)]

/-- DECODE's checks pass. -/
theorem decodeContract_of_fits {n : Nat} (hpos : 0 < n) (hn : s.srcN = n) (hr : ValidRemainder n)
    (hc : ((5 * n / 8 : Nat) : Int) ≤ s.dstCap) : decodeContract s = .ok (5 * n / 8) := by
  have hD : decodedLength s.srcN = some (5 * n / 8) := by
    rw [decodedLength_eq_some, hn]; simp [hr]
  rw [decodeContract_of_pos (by omega) (by omega), hD]
  simp only []
  rw [if_neg (by omega)]

/-! ### Steps -/

/-- A write of CMD while FAULTED is ignored. -/
theorem step_writeCmd_of_faulted {w : Word32} {rest : List HostAction} (hf : s.faulted = true)
    (h : s.pending = .writeCmd w :: rest) : step s = .next (s.withPending rest) := by
  rw [step_of_pending h]
  exact issueCommand_of_faulted (s := s.withPending rest) hf

/-- A write of a command's word runs the command. -/
theorem step_writeCmd_of_ok {w : Word32} {i : Instr} {rest : List HostAction} (hf : s.faulted = false)
    (h : s.pending = .writeCmd w :: rest) (hd : decodeCmd w = .ok i) :
    step s = exec i ((s.withPending rest).storeCmd w) := by
  rw [step_of_pending h]
  exact issueCommand_of_ok (s := s.withPending rest) hf hd

/-- A write of an illegal word faults. -/
theorem step_writeCmd_of_illegal {w : Word32} {r : Illegal} {rest : List HostAction} (hf : s.faulted = false)
    (h : s.pending = .writeCmd w :: rest) (hd : decodeCmd w = .error r) :
    step s = .next (((s.withPending rest).storeCmd w).raiseFault .unused .illegalCommand) := by
  rw [step_of_pending h]
  exact issueCommand_of_illegal (s := s.withPending rest) hf hd

end Sys2Proof.Machine
end

