-- ==== Sys2Proof/Laws/PerInstr.lean ====
section
/-! SUPPORT. Laws made per instruction. -/

namespace Sys2Proof.Laws.OpcodeRow

/-- The command's word is of the row of the opcode map that has its mnemonic (30_encoding.md section 4). -/
def Statement (i : Instr) : Prop :=
  ∃ r ∈ opcodeMap, r.mnemonic = i.mnemonic ∧ r.covers (encodeCmd i) = true

theorem symbolof (v : SymbolValue) : Statement (.symbolof v) :=
  ⟨⟨"SYMBOLOF", 0x00000001, 0xFFFFE0FF⟩, by decide, rfl, by revert v; decide⟩

theorem valueof (c : Byte) : Statement (.valueof c) :=
  ⟨⟨"VALUEOF", 0x00000002, 0xFFFF00FF⟩, by decide, rfl, by revert c; decide +kernel⟩

theorem enclen : Statement .enclen := ⟨⟨"ENCLEN", 0x00000003, 0xFFFFFFFF⟩, by decide, rfl, by decide⟩

theorem declen : Statement .declen := ⟨⟨"DECLEN", 0x00000004, 0xFFFFFFFF⟩, by decide, rfl, by decide⟩

theorem encode : Statement .encode := ⟨⟨"ENCODE", 0x00000005, 0xFFFFFFFF⟩, by decide, rfl, by decide⟩

theorem decode : Statement .decode := ⟨⟨"DECODE", 0x00000006, 0xFFFFFFFF⟩, by decide, rfl, by decide⟩

end Sys2Proof.Laws.OpcodeRow
end

