-- ==== Sys2Proof/Laws/RoundTrip.lean ====
section
/-! SUPPORT. Encoding and decoding as functions of byte strings, one after the other, and the spellings DECODE takes
alike (42_encoder.md and 43_decoder.md, their sections on properties). -/

namespace Sys2Proof.Machine

/-- Beyond its end the byte stream reads as zero bits. -/
theorem byteStreamBit_beyond (bytes : List Byte) (p : Nat) (h : 8 * bytes.length ≤ p) :
    byteStreamBit bytes p = false := by
  simp [byteStreamBit, List.getElem?_eq_none (l := bytes) (i := p / 8) (by omega)]

/-- REV inverts FWD. -/
theorem rev_fwd : ∀ v : SymbolValue, rev (fwd v) = v.setWidth 8 := by decide +kernel

/-- The symbols ENCODE writes carry the stream of its source. -/
theorem symbolStreamBit_encodeBytes (bytes : List Byte) (p : Nat) (h : p < 5 * ((8 * bytes.length + 4) / 5)) :
    symbolStreamBit (encodeBytes bytes) p = byteStreamBit bytes p := by
  have hj : p / 5 < (8 * bytes.length + 4) / 5 := by omega
  have hl : p / 5 < (encodeGroups (bytes.length / 5) bytes).length := by rw [encodeGroups_length _ _ rfl]; exact hj
  have hb := encodeGroups_bit _ bytes rfl (p / 5) (p % 5) hj (by omega)
  rw [show 5 * (p / 5) + p % 5 = p by omega] at hb
  rw [← hb, symbolStreamBit, encodeBytes, List.getD_eq_getElem?_getD, List.getElem?_map, List.getD_eq_getElem?_getD,
    List.getElem?_eq_getElem hl]
  simp only [Option.map_some, Option.getD_some, rev_fwd]
  have key : ∀ v : SymbolValue, ∀ k, k < 5 → (v.setWidth 8).getLsbD (4 - k) = v.getMsbD k := by decide +kernel
  exact key _ _ (by omega)

/-- Every symbol ENCODE writes is in the alphabet. -/
theorem allSymbolsValid_encodeBytes (bytes : List Byte) : AllSymbolsValid (encodeBytes bytes) := by
  intro x hx
  simp only [encodeBytes, List.mem_map] at hx
  obtain ⟨v, -, rfl⟩ := hx
  revert v; decide +kernel

/-- What decodes has every symbol in the alphabet and its tail bits zero. -/
theorem valid_of_decodeBytes {symbols out : List Byte} (hr : ValidRemainder symbols.length)
    (h : decodeBytes symbols = some out) : AllSymbolsValid symbols ∧ TailBitsZero symbols := by
  by_contra hn
  have := (decodeGroups_eq_none _ symbols rfl hr).2 hn
  rw [decodeBytes, this] at h
  cases h

/-- Decoding what was encoded. -/
theorem decodeBytes_encodeBytes (bytes : List Byte) : decodeBytes (encodeBytes bytes) = some bytes := by
  have hr : ValidRemainder (encodeBytes bytes).length := by rw [encodeBytes_length, ValidRemainder]; omega
  cases hd : decodeBytes (encodeBytes bytes) with
  | none =>
    refine absurd ⟨allSymbolsValid_encodeBytes bytes, ?_⟩ ((decodeGroups_eq_none _ _ rfl hr).1 hd)
    intro p h1 h2
    rw [encodeBytes_length] at *
    rw [symbolStreamBit_encodeBytes _ _ h2]
    exact byteStreamBit_beyond _ _ (by omega)
  | some out =>
    obtain ⟨hl, hb⟩ := decodeGroups_bit _ _ out rfl hr hd
    rw [encodeBytes_length] at hl
    have hl' : out.length = bytes.length := by omega
    congr 1
    apply List.ext_getElem hl'
    intro j h1 h2
    apply BitVec.eq_of_getMsbD_eq
    intro k hk
    have := hb j k h1 hk
    rw [symbolStreamBit_encodeBytes _ _ (by omega)] at this
    simp only [List.getD_eq_getElem?_getD, byteStreamBit, List.getElem?_eq_getElem h1, Option.getD_some,
      show (8 * j + k) / 8 = j by omega, show (8 * j + k) % 8 = k by omega, List.getElem?_eq_getElem h2] at this
    exact this

/-- Encoding what was decoded spells every symbol canonically. -/
theorem encodeBytes_of_decodeBytes (symbols out : List Byte) (hr : ValidRemainder symbols.length)
    (h : decodeBytes symbols = some out) : encodeBytes out = symbols.map fun x => fwd ((rev x).setWidth 5) := by
  obtain ⟨hl, hb⟩ := decodeGroups_bit _ _ out rfl hr h
  have hvz := valid_of_decodeBytes hr h
  have hlen : (encodeGroups (out.length / 5) out).length = symbols.length := by
    rw [encodeGroups_length _ _ rfl, hl]; simp only [ValidRemainder] at hr; omega
  rw [encodeBytes, show (fun x => fwd ((rev x).setWidth 5)) = fwd ∘ (fun x => (rev x).setWidth 5) from rfl,
    ← List.map_map]
  congr 1
  apply List.ext_getElem
  · rw [hlen]; simp
  · intro j h1 h2
    apply BitVec.eq_of_getMsbD_eq
    intro k hk
    have hj : j < (8 * out.length + 4) / 5 := by rw [← encodeGroups_length _ _ rfl]; exact h1
    have e := encodeGroups_bit _ out rfl j k hj hk
    rw [List.getD_eq_getElem?_getD, List.getElem?_eq_getElem h1, Option.getD_some] at e
    have hjx : j < symbols.length := by omega
    have e2 : byteStreamBit out (5 * j + k) = symbolStreamBit symbols (5 * j + k) := by
      by_cases hp : 5 * j + k < 8 * out.length
      · have := hb ((5 * j + k) / 8) ((5 * j + k) % 8) (by omega) (by omega)
        rw [show 8 * ((5 * j + k) / 8) + (5 * j + k) % 8 = 5 * j + k by omega] at this
        rw [← this, byteStreamBit]
      · rw [byteStreamBit_beyond _ _ (by omega), hvz.2 _ (by omega) (by omega)]
    rw [e, e2, symbolStreamBit, show (5 * j + k) / 5 = j by omega, show (5 * j + k) % 5 = k by omega]
    simp only [List.getElem_map, List.getD_eq_getElem?_getD, List.getElem?_eq_getElem hjx, Option.getD_some]
    have key : ∀ b : Byte, ∀ k, k < 5 → b.getLsbD (4 - k) = (b.setWidth 5).getMsbD k := by decide +kernel
    exact key _ _ hk

/-- Decoding looks at the values of the symbols only. -/
theorem decodeBytes_congr {symbols symbols' : List Byte} (h : symbols'.map rev = symbols.map rev) :
    decodeBytes symbols' = decodeBytes symbols := by
  have hl : symbols'.length = symbols.length := by simpa using congrArg List.length h
  unfold decodeBytes
  rw [hl]
  generalize symbols.length / 8 = q
  clear hl
  induction q generalizing symbols symbols' with
  | zero => simp only [decodeGroups, decodeTail, h]
  | succ q ih =>
    simp only [decodeGroups, decodeFull, List.map_take, h]
    rw [ih (symbols := symbols.drop 8) (symbols' := symbols'.drop 8) (by simp [List.map_drop, h])]

end Sys2Proof.Machine
end

