-- ==== Sys2Proof/Tests/Slice0.lean ====
section
/-! SUPPORT. The model's own tests. Every expected result is the spec's: the vectors of 95_test_vectors.md, or the words
of 30_encoding.md section 4, written out. -/

namespace Sys2Proof.Tests

-- One theorem after another: checked side by side, the kernel evaluations below take a thread each.
set_option Elab.async false

open Sys2Proof.Machine

/-- A block right after reset but for its operands and the bytes the host has stored in SRC. -/
def block (w : LenW) (arg srcLen dstLen : Int) (src : List Byte) : State :=
  { State.resetAt w with
    arg := BitVec.ofInt w.bits arg
    srcLen := BitVec.ofInt w.bits srcLen
    dstLen := BitVec.ofInt w.bits dstLen
    src := Memory.writeBytes [] 0 src }

/-- The reference instance. -/
def w64 : LenW := Config.referenceLenW

/-- The instance of the tables EL16 and DL16. -/
def w16 : LenW := ⟨16, by decide⟩

/-- The ASCII bytes of a text. -/
def text (t : String) : List Byte := t.toList.map ascii

/-- What a host sees after one step: STATUS, RESULT and the bytes of DST that something fixes. -/
def seen : Host.Outcome State Fault Refusal → Option (Word32 × Int × List Byte)
  | .next t => some (t.status, t.resultN, t.dst.map Prod.snd)
  | _ => none

/-- STATUS and RESULT alone. -/
def ended : Host.Outcome State Fault Refusal → Option (Word32 × Int)
  | .next t => some (t.status, t.resultN)
  | _ => none

/-- A step whose act is to write a word to CMD. -/
def issue (w : Word32) (s : State) : Host.Outcome State Fault Refusal := step (s.beforeWriting w)

/-! ### WellFormed: each check refuses an ill-formed operand -/

theorem test_wellFormed_symbol : WellFormed.symbolOperand 32 = false ∧ WellFormed.symbolOperand (-1) = false := by
  decide

theorem test_wellFormed_character :
    WellFormed.characterOperand 256 = false ∧ WellFormed.characterOperand (-1) = false := by decide

theorem test_wellFormed_length :
    WellFormed.lengthOperand w16 65536 = false ∧ WellFormed.lengthOperand w16 (-32769) = false := by decide

theorem test_assembler_refuses_symbolof_32 : assemble w16 (.symbolof 32) = none := by decide

theorem test_assembler_refuses_valueof_256 : assemble w16 (.valueof 256) = none := by decide

/-! ### Decoding: words of the opcode map, bit by bit (30_encoding.md section 4; 95 sections 2, 3, 8) -/

theorem test_decode_symbolof_18 :
    decodeCmd 0b0000000000000000_00010010_0000_0001#32 = .ok (.symbolof 18) := by decide

theorem test_decode_symbolof_31 :
    decodeCmd 0b0000000000000000_00011111_0000_0001#32 = .ok (.symbolof 31) := by decide

theorem test_decode_valueof_6C :
    decodeCmd 0b0000000000000000_01101100_0000_0010#32 = .ok (.valueof 0x6C) := by decide

theorem test_decode_valueof_FF :
    decodeCmd 0b0000000000000000_11111111_0000_0010#32 = .ok (.valueof 0xFF) := by decide

theorem test_decode_enclen : decodeCmd 0b0000000000000000_00000000_0000_0011#32 = .ok .enclen := by decide

theorem test_decode_declen : decodeCmd 0b0000000000000000_00000000_0000_0100#32 = .ok .declen := by decide

theorem test_decode_encode : decodeCmd 0b0000000000000000_00000000_0000_0101#32 = .ok .encode := by decide

theorem test_decode_decode : decodeCmd 0b0000000000000000_00000000_0000_0110#32 = .ok .decode := by decide

/-- The illegal words of 95 section 8. -/
theorem test_decode_illegal :
    [0x00000000#32, 0x00002001, 0x0000E001, 0x00000103, 0x00008004, 0x00000105, 0x0000FF06, 0x00000007,
      0x0000000F, 0x00000011, 0x00010003, 0x80000002].all (fun w => !isLegal w) = true := by decide +kernel

theorem test_decodeTableWord_symbolof : decodeTableWord 32 0x1201 = some (.symbolof 18) := by decide

/-! ### SYMBOLOF and VALUEOF (95 sections 2 and 3) -/

theorem test_symbolof_18 : ended (issue 0x00001201 (block w64 0 0 0 [])) = some (0, 0x4A) := by decide +kernel

theorem test_symbolof_31 : ended (issue 0x00001F01 (block w64 0 0 0 [])) = some (0, 0x5A) := by decide +kernel

theorem test_valueof_alias_l : ended (issue 0x00006C02 (block w64 0 0 0 [])) = some (0, 1) := by decide +kernel

theorem test_valueof_U_invalid : ended (issue 0x00005502 (block w64 0 0 0 [])) = some (0, 255) := by decide +kernel

/-! ### ENCLEN and DECLEN (95 section 4) -/

theorem test_enclen_nmax :
    ended (issue 0x00000003 (block w64 5764607523034234879 0 0 [])) = some (0, 9223372036854775807) ∧
    ended (issue 0x00000003 (block w64 5764607523034234880 0 0 [])) = some (1, -1) := by decide +kernel

theorem test_enclen_16 :
    ended (issue 0x00000003 (block w16 20479 0 0 [])) = some (0, 32767) ∧
    ended (issue 0x00000003 (block w16 20480 0 0 [])) = some (1, -1) ∧
    ended (issue 0x00000003 (block w16 (-1) 0 0 [])) = some (1, -1) := by decide +kernel

theorem test_declen_remainders :
    ended (issue 0x00000004 (block w64 31 0 0 [])) = some (0, 19) ∧
    ended (issue 0x00000004 (block w64 30 0 0 [])) = some (1, -1) ∧
    ended (issue 0x00000004 (block w64 (-8) 0 0 [])) = some (1, -1) := by decide +kernel

theorem test_declen_16 :
    ended (issue 0x00000004 (block w16 32767 0 0 [])) = some (0, 20479) ∧
    ended (issue 0x00000004 (block w16 32766 0 0 [])) = some (1, -1) := by decide +kernel

/-! ### ENCODE (95 sections 1 and 5) -/

theorem test_encode_W2 :
    seen (issue 0x00000005 (block w64 0 19 31 (text "1234567890123456789"))) =
      some (0, 31, text "64S36D1N6RVKGE9G64S36D1N6RVKGE8") := by decide +kernel

theorem test_encode_tails :
    seen (issue 0x00000005 (block w64 0 1 2 [0x07])) = some (0, 2, text "0W") ∧
    seen (issue 0x00000005 (block w64 0 2 4 [0xFF, 0xFF])) = some (0, 4, text "ZZZG") ∧
    seen (issue 0x00000005 (block w64 0 3 5 [0xFF, 0xFF, 0xFF])) = some (0, 5, text "ZZZZY") ∧
    seen (issue 0x00000005 (block w64 0 4 7 [0xDE, 0xAD, 0xBE, 0xEF])) = some (0, 7, text "VTPVXVR") := by
  decide +kernel

/-- The fault rows of 95 section 5, in its order. -/
theorem test_encode_faults :
    ended (issue 0x00000005 (block w64 0 5 7 (text "12345"))) = some (0x53, -1) ∧
    ended (issue 0x00000005 (block w64 0 0 8 (text "12345"))) = some (0x33, -1) ∧
    ended (issue 0x00000005 (block w64 0 (-1) 8 (text "12345"))) = some (0x23, -1) ∧
    ended (issue 0x00000005 (block w64 0 0 (-1) (text "12345"))) = some (0x23, -1) ∧
    ended (issue 0x00000005 (block w64 0 5764607523034234880 9223372036854775807 [])) = some (0x53, -1) := by
  decide +kernel

/-! ### DECODE (95 sections 1, 6 and 7) -/

theorem test_decode_W2_inverse :
    seen (issue 0x00000006 (block w64 0 31 19 (text "64s36d1n6rvkge9g64S36D1N6RVKGE8"))) =
      some (0, 19, text "1234567890123456789") := by decide +kernel

theorem test_decode_aliases :
    seen (issue 0x00000006 (block w64 0 2 1 (text "LO"))) = some (0, 1, [0x08]) ∧
    seen (issue 0x00000006 (block w64 0 4 2 (text "I0I0"))) = some (0, 2, [0x08, 0x02]) := by decide +kernel

/-- Rows of 95 section 7 and W5: invalid symbols and set tail bits for each tail. -/
theorem test_decode_invalidChar :
    ended (issue 0x00000006 (block w64 0 31 19 (text "64S36D1N6RVKGE9G64S36D1N6RVKGE4"))) = some (2, -1) ∧
    ended (issue 0x00000006 (block w64 0 8 5 (text "64S36D1U"))) = some (2, -1) ∧
    ended (issue 0x00000006 (block w64 0 2 1 (text "1i"))) = some (2, -1) ∧
    ended (issue 0x00000006 (block w64 0 4 2 (text "ZZZH"))) = some (2, -1) ∧
    ended (issue 0x00000006 (block w64 0 5 3 (text "ZZZZZ"))) = some (2, -1) ∧
    ended (issue 0x00000006 (block w64 0 10 6 (text "64S36D1NU0"))) = some (2, -1) := by decide +kernel

/-- The fault rows of 95 section 7, and its priority check. -/
theorem test_decode_faults :
    ended (issue 0x00000006 (block w64 0 8 4 (text "64S36D1N"))) = some (0x53, -1) ∧
    ended (issue 0x00000006 (block w64 0 0 5 (text "64S36D1N"))) = some (0x33, -1) ∧
    ended (issue 0x00000006 (block w64 0 9 0 (text "UUUUUUUUU"))) = some (0x43, -1) ∧
    ended (issue 0x00000006 (block w64 0 9 100 (text "UUUUUUUUU"))) = some (0x43, -1) ∧
    ended (issue 0x00000006 (block w64 0 8 (-5) (text "64S36D1N"))) = some (0x23, -1) := by decide +kernel

/-! ### The host's acts, faults and reset (95 sections 8 and 9) -/

/-- An illegal word faults ILLEGAL_COMMAND and stays in CMD (95 section 8; P4). -/
theorem test_illegal_word :
    ∃ t, issue 0x00000105 (block w64 0 0 0 []) = .next t ∧ t.status = 0x13 ∧ t.resultN = -1 ∧ t.cmd = 0x00000105 :=
  ⟨_, rfl, by decide +kernel⟩

/-- P3: a command written while FAULTED is ignored. -/
theorem test_faulted_ignores :
    issue 0x00000003 { block w64 5 3 8 [] with cmd := 6, status := 0x43, result := -1 } =
      .next { block w64 5 3 8 [] with cmd := 6, status := 0x43, result := -1 } := rfl

/-- Capacity above `E(n)`: the marker bytes stay (95 section 5, second fault-table row). -/
theorem test_encode_keeps_capacity :
    seen (issue 0x00000005 { block w64 0 5 12 (text "12345") with
      dst := Memory.writeBytes [] 0 (List.replicate 12 0xEE) }) =
      some (0, 8, text "64S36D1N" ++ [0xEE, 0xEE, 0xEE, 0xEE]) := by decide +kernel

/-- W6': after a fault of DECODE no DST byte below DST_LEN is fixed, and those above are as they were. -/
theorem test_fault_unfixes_dst :
    seen (issue 0x00000006 { block w64 0 30 19 [] with dst := Memory.writeBytes [] 18 [0xEE, 0xEE] }) =
      some (0x43, -1, [0xEE]) := by decide +kernel

/-- The host can write RESULT and STATUS without effect (R19). -/
theorem test_write_result_ignored :
    step { block w64 0 0 0 [] with pending := [.writeResult 5] } = .next (block w64 0 0 0 []) := rfl

end Sys2Proof.Tests
end

