-- ==== Sys2Proof/Tests/Witnesses.lean ====
section
/-! SUPPORT. For every statement with hypotheses, a concrete state and operands that meet all of them together; one
witness for each clause, at a boundary value where the clause has a range. -/

namespace Sys2Proof.Tests

-- One theorem after another: checked side by side, the kernel evaluations below take a thread each.
set_option Elab.async false

open Sys2Proof.Machine

/-- A block with these host acts pending. -/
def withActs (s : State) (acts : List HostAction) : State := { s with pending := acts }

/-- A block that DECODE has left FAULTED with BAD_SOURCE_LENGTH (95 section 9, P3). -/
def faultedBlock : State :=
  { block w64 5 30 19 (text "64S36D1N") with cmd := 0x00000006, status := 0x43, result := BitVec.ofInt w64.bits (-1) }

/-- The source bytes of `block` are provided. -/
def providesAll (s : State) (bytes : List Byte) : Bool :=
  (List.range bytes.length).all fun i => s.src.read? i == bytes[i]?

theorem srcProvided_of {s : State} {bytes : List Byte} (h : providesAll s bytes = true) : SrcProvided s bytes := by
  intro i hi
  simp only [providesAll, List.all_eq_true, List.mem_range, beq_iff_eq] at h
  rw [h i hi]
  simp [hi]

/-- The tail bits of a text are zero, checked bit by bit. -/
def tailClear (symbols : List Byte) : Bool :=
  (List.range (5 * symbols.length)).all fun p =>
    decide (p < 8 * (5 * symbols.length / 8)) || !symbolStreamBit symbols p

theorem tailBitsZero_of {symbols : List Byte} (h : tailClear symbols = true) : TailBitsZero symbols := by
  intro p h1 h2
  simp only [tailClear, List.all_eq_true, List.mem_range] at h
  have := h p h2
  simp only [Nat.not_lt.2 h1, decide_false, Bool.false_or, Bool.not_eq_eq_eq_not, Bool.not_true] at this
  exact this

/-! ### Command words -/

theorem witness_DecodeAndEncodeAgree : decodeCmd 0x00006C02#32 = .ok (.valueof 0x6C) := by decide

theorem witness_IllegalWords :
    isLegal 0x00000105#32 = false ∧ (withActs (block w64 0 0 0 []) [.writeCmd 0x00000105]).faulted = false := by
  decide +kernel

/-- One word for each clause: RSV1, RSV0, SYMBOLOF's high bits, SYMBOLOF 31, VALUEOF 255, an immediate, the four bare
commands, and the first and last reserved OP. -/
theorem witness_DecodingIsTotal :
    [0x80000002, 0x00000011, 0x00002001, 0x00001F01, 0x0000FF02, 0x00000103, 3, 4, 5, 6, 0, 7, 15].map
      (fun w => isLegal (BitVec.ofNat 32 w)) =
    [false, false, false, true, true, false, true, true, true, true, false, false, false] := by decide +kernel

theorem witness_StepRuns :
    (withActs (block w64 0 0 0 []) [.writeCmd 0x00001F01]).faulted = false ∧
    decodeCmd 0x00001F01 = .ok (.symbolof 31) := by decide +kernel

/-! ### Tables -/

/-- 0x55 is no canonical character in either case and no alias; 'A' is the first letter, at index 10. -/
theorem witness_ReverseTableEntries :
    (∀ v : SymbolValue, 0x55#8 ≠ letterOf v ∧ (10 ≤ v.toNat → 0x55#8 ≠ letterOf v + 0x20#8)) ∧
    0x55#8 ∉ [0x4F#8, 0x6F#8, 0x49#8, 0x69#8, 0x4C#8, 0x6C#8] ∧ letterOf 10 = 0x41#8 := by decide +kernel

theorem witness_TableProperties : rev 0x6F#8 ≠ 0xFF ∧ rev 0x7A#8 ≠ 0xFF ∧ rev 0x30#8 ≠ 0xFF := by decide +kernel

theorem witness_Symbolof :
    (∃ t, exec (.symbolof 31) (block w64 0 0 0 []) = .next t) ∧ faultedBlock.faulted = true ∧
    (0x00002001#32).toNat % 16 = 1 ∧ (0x00002001#32).toNat / 8192 % 8 ≠ 0 :=
  ⟨⟨_, rfl⟩, by decide +kernel⟩

theorem witness_Valueof :
    (∃ t, exec (.valueof 0x5A) (block w64 0 0 0 []) = .next t) ∧
    (∃ t, exec (.valueof (0x5A + 0x20)) (block w64 0 0 0 []) = .next t) ∧ 0x41#8 ≤ 0x5A#8 :=
  ⟨⟨_, rfl⟩, ⟨_, rfl⟩, by decide⟩

/-! ### Lengths -/

/-- The last encodable length of LEN_W = 16, and a tail of four bytes. -/
theorem witness_EncodedLength :
    encodedLength w16 ((5 * 4095 + 4 : Nat) : Int) = some 32767 ∧ w16.maxLen = 32767 := by decide +kernel

theorem witness_LengthsAreInverse :
    encodedLength w16 20479 = some 32767 ∧ (32767 : Int) ≤ w16.maxLen ∧ decodedLength 32767 = some 20479 := by
  decide +kernel

/-- ARG at and on both sides of each bound. -/
theorem witness_Enclen :
    (block w16 (-1) 0 0 []).argN = -1 ∧ (block w16 0 0 0 []).argN = 0 ∧ (block w16 20479 0 0 []).argN = 20479 ∧
    (block w16 20480 0 0 []).argN = 20480 ∧ (block w16 32767 0 0 []).argN = w16.maxLen ∧
    (20479 : Int) = 5 * 2 ^ (w16.bits - 4) - 1 ∧ (0x00000007#32).toNat % 4 = 3 := by decide +kernel

/-- ARG with each remainder, valid and not, and at MAXLEN. -/
theorem witness_Declen :
    [0, 1, 2, 3, 4, 5, 6, 7, -1, 32767].map (fun n => (block w16 n 0 0 []).argN) =
      [0, 1, 2, 3, 4, 5, 6, 7, -1, w16.maxLen] := by decide +kernel

/-! ### ENCODE -/

/-- One byte into exactly two, five into exactly eight, nineteen into exactly thirty-one. -/
theorem witness_EncodeWrites :
    ∀ text' ∈ [text "1", text "12345", text "1234567890123456789"],
      let s := block w64 0 text'.length ((8 * text'.length + 4) / 5 : Nat) text'
      s.placement = .disjoint ∧ text' ≠ [] ∧ s.srcN = text'.length ∧ providesAll s text' = true ∧
        (((8 * text'.length + 4) / 5 : Nat) : Int) ≤ s.dstCap := by decide +kernel

/-- A negative length of either kind, an empty source, a capacity one too small, and more bytes than any capacity. -/
theorem witness_EncodeFaults :
    (block w64 0 (-1) 8 []).srcN < 0 ∧ (block w64 0 5 (-1) []).dstCap < 0 ∧ (block w64 0 0 0 []).srcN = 0 ∧
    (0 : Int) ≤ (block w64 0 0 0 []).dstCap ∧
    (block w64 0 5 7 []).dstCap < (8 * (block w64 0 5 7 []).srcN + 4) / 5 ∧
    (block w16 0 32767 32767 []).dstCap < (8 * (block w16 0 32767 32767 []).srcN + 4) / 5 := by decide +kernel

/-! ### DECODE -/

/-- Each tail, with the capacity exactly enough. -/
theorem witness_DecodeWrites :
    ∀ symbols ∈ [text "64S36D1N", text "0W", text "zzzg", text "ZZZZY", text "VTPVXVR", text "LO"],
      let s := block w64 0 symbols.length (5 * symbols.length / 8 : Nat) symbols
      s.placement = .disjoint ∧ symbols ≠ [] ∧ s.srcN = symbols.length ∧ providesAll s symbols = true ∧
        ((5 * symbols.length / 8 : Nat) : Int) ≤ s.dstCap ∧ symbols.all (fun x => rev x != 0xFF) = true ∧
        tailClear symbols = true := by decide +kernel

theorem witness_ValidRemainder :
    ∀ n ∈ [8, 2, 4, 5, 7], ValidRemainder n := by unfold ValidRemainder; decide

/-- An invalid symbol, and a set tail bit, in sources whose lengths are valid. -/
theorem witness_DecodeRejects :
    (text "64S36D1U").all (fun x => rev x != 0xFF) = false ∧ tailClear (text "1i") = false ∧
    tailClear (text "ZZZZZ") = false := by decide +kernel

theorem witness_DecodeFaults :
    (block w64 0 (-1) 5 []).srcN < 0 ∧ (block w64 0 8 (-5) []).dstCap < 0 ∧ (block w64 0 0 5 []).srcN = 0 ∧
    (∀ n ∈ [1, 3, 6, 9], 0 < (block w64 0 n 0 []).srcN) ∧ (∀ n ∈ [1, 3, 6, 9], ¬ ValidRemainder n) ∧
    (block w64 0 8 4 []).dstCap < 5 * (block w64 0 8 4 []).srcN / 8 ∧ ValidRemainder 8 := by
  unfold ValidRemainder; decide +kernel

/-- "LO" and "10" have the same values, position by position, and both can stand in SRC. -/
theorem witness_DecodeIgnoresSpelling :
    let s := block w64 0 2 1 (text "LO")
    let src' := Memory.writeBytes [] 0 (text "10")
    providesAll s (text "LO") = true ∧ s.srcN = (text "LO").length ∧ (text "10").map rev = (text "LO").map rev ∧
      providesAll { s with src := src' } (text "10") = true ∧
      ended (exec .decode s) = some (0, 1) := by decide +kernel

/-! ### Both -/

/-- W1 there and back (95 section 1): what ENCODE wrote stands in the SRC of the block that decodes, and the other way
round. -/
theorem witness_RoundTrip :
    let s := block w64 0 5 8 (text "12345")
    let u := block w64 0 8 5 (text "64S36D1N")
    seen (exec .encode s) = some (0, 8, text "64S36D1N") ∧ s.srcN = (text "12345").length ∧
      providesAll s (text "12345") = true ∧ u.lenW = s.lenW ∧ u.placement = .disjoint ∧ u.srcN = 8 ∧
      ((text "12345").length : Int) ≤ u.dstCap ∧ providesAll u (text "64S36D1N") = true := by decide +kernel

theorem witness_CanonicalForm :
    let s := block w64 0 2 1 (text "lo")
    let u := block w64 0 1 2 [0x08]
    seen (exec .decode s) = some (0, 1, [0x08]) ∧ s.srcN = (text "lo").length ∧
      providesAll s (text "lo") = true ∧ u.lenW = s.lenW ∧ u.srcN = 1 ∧ ((text "lo").length : Int) ≤ u.dstCap ∧
      providesAll u [0x08] = true := by decide +kernel

/-! ### All commands -/

/-- Every command answers a next state somewhere; DECODE with OK, with INVALID_CHAR and with a fault. -/
theorem witness_Commands :
    (∀ i ∈ [Instr.symbolof 0, .valueof 0, .enclen, .declen], (ended (exec i (block w64 8 0 0 []))).isSome = true) ∧
    ended (exec .encode (block w64 0 5 8 (text "12345"))) = some (0, 8) ∧
    ended (exec .encode (block w64 0 5 7 (text "12345"))) = some (0x53, -1) ∧
    ended (exec .decode (block w64 0 8 5 (text "64S36D1N"))) = some (0, 5) ∧
    ended (exec .decode (block w64 0 8 5 (text "64S36D1U"))) = some (2, -1) ∧
    ended (exec .decode (block w64 0 9 5 (text "64S36D1U"))) = some (0x43, -1) := by decide +kernel

/-- A data error, and then a command that runs. -/
theorem witness_DataErrors :
    ended (exec .enclen (block w64 (-1) 0 0 [])) = some (1, -1) ∧
    ended (exec .declen (block w64 30 0 0 [])) = some (1, -1) ∧ decodeCmd 0x00000003 = .ok .enclen := by
  decide +kernel

/-- Two blocks that agree on the operands and differ in CMD, RESULT, STATUS and DST. -/
theorem witness_EffectDepends :
    let s := block w64 0 5 8 (text "12345")
    let s' := { block w64 0 5 8 (text "12345") with cmd := 6, status := 2, dst := [(3, 0xEE)], dstDraws := [8] }
    s.lenW = s'.lenW ∧ s.placement = s'.placement ∧ s.argN = s'.argN ∧ s.srcN = s'.srcN ∧ s.dstCap = s'.dstCap ∧
      s.src = s'.src ∧ s ≠ s' := by decide +kernel

/-- A platform whose buffers overlap; and a step that stores nothing into SRC. -/
theorem witness_Overlap :
    ({ block w64 0 5 8 (text "12345") with placement := .overlapping } : State).placement = .overlapping ∧
    (∃ t, step (withActs (block w64 0 5 8 (text "12345")) [.writeCmd 5]) = .next t) :=
  ⟨rfl, _, rfl⟩

/-- Checks pass and SRC holds nothing. -/
theorem witness_WhereExecStops :
    let s := block w64 0 5 8 []
    s.placement = .disjoint ∧ 0 < s.srcN ∧ s.src.read? 0 = none ∧ (8 * s.srcN + 4) / 5 ≤ s.dstCap ∧
      exec .encode s = .fault .sourceNotProvided ∧ exec .decode s = .fault .sourceNotProvided ∧
      exec .encode { s with placement := .overlapping } = .refused .overlappingBuffers := by
  refine ⟨rfl, by decide +kernel, rfl, by decide +kernel, rfl, rfl, rfl⟩

/-! ### The host -/

/-- Each act, pending in a live block and in a FAULTED one. -/
theorem witness_HostActs :
    ∀ a ∈ [HostAction.writeArg (-1), .writeSrcLen 5, .writeDstLen 8, .writeResult 7, .writeStatus 3, .readReg .status,
      .writeCmd 3, .readDst 0 7, .fillSrc (text "12345"), .storeSrc 4 0x35, .storeDst 7 0xEE, .reset],
      (withActs (block w64 0 0 0 []) [a]).pending = [a] ∧ (withActs faultedBlock [a]).pending = [a] ∧
      (withActs faultedBlock [a]).faulted = true ∧ (withActs faultedBlock [a]).placement = .disjoint := by
  decide +kernel

/-- Steps into FAULTED: an illegal word, and DECODE of nine symbols. -/
theorem witness_FaultEntry :
    (block w64 0 9 5 []).faulted = false ∧
    ended (step (withActs (block w64 0 9 5 []) [.writeCmd 0])) = some (0x13, -1) ∧
    ended (step (withActs (block w64 0 9 5 []) [.writeCmd 6])) = some (0x43, -1) := by decide +kernel

/-- The one step out of FAULTED. -/
theorem witness_OnlyReset :
    ∃ t, step (withActs faultedBlock [.reset]) = .next t ∧ t.faulted = false ∧
      (∃ u, exec (.symbolof 31) t = .next u) ∧ (∃ u, exec (.valueof 0xFF) t = .next u) :=
  ⟨_, rfl, rfl, ⟨_, rfl⟩, ⟨_, rfl⟩⟩

theorem witness_IdleBlock : State.reset.pending = [] := rfl

/-- The first and the last number of either spelling that fits LEN_W = 16. -/
theorem witness_Pseudo :
    WellFormed.lengthOperand w16 (-32768) = true ∧ WellFormed.lengthOperand w16 65535 = true := by decide

/-- Accepted lines at the last operand of each (R59: `1 | 31 << 8`, `2 | 255 << 8`), and at the first. -/
theorem witness_CommandLines :
    assemble w16 (.symbolof 31) = some [.writeCmd 0x00001F01] ∧ assemble w16 (.symbolof 0) = some [.writeCmd 1] ∧
    assemble w16 (.valueof 255) = some [.writeCmd 0x0000FF02] ∧ assemble w16 (.valueof 0) = some [.writeCmd 2] := by
  decide

/-- Two instances, each with a command pending. -/
theorem witness_Instances :
    let a := withActs (block w64 0 0 0 []) [.writeCmd 0x00001201]
    let b := withActs (block w16 5 0 0 []) [.writeCmd 3]
    ∃ x y z, stepOf [a, b] 0 = .next x ∧ stepOf [a, b] 1 = .next y ∧ stepOf x 1 = .next z :=
  ⟨_, _, _, rfl, rfl, rfl⟩

/-- A state of which the invariant holds, FAULTED, with something in both buffers, and a step from it. -/
theorem witness_Inv :
    let s := withActs { faultedBlock with dst := [(0, 0x31), (18, 0xEE)], dstDraws := [19] } [.writeArg 5]
    s.Inv ∧ ∃ t, step s = .next t := by
  refine ⟨⟨by decide +kernel, by decide +kernel, by decide, by decide,
    ⟨.faulted, .badSourceLength, by decide +kernel, by decide⟩, ?_, fun _ => by decide +kernel, ?_, ?_, ?_,
    fun _ => by decide +kernel, fun _ _ _ => .inr (by decide +kernel)⟩, _, rfl⟩
  · intro h; exact absurd h (by decide +kernel)
  · intro h; exact absurd h (by decide +kernel)
  · intro h; exact absurd h (by decide +kernel)
  · intro h; exact absurd h (by decide +kernel)

end Sys2Proof.Tests
end

