-- ==== Sys2Proof/Proofs/HostRegisters.lean ====
section
/-! The host's reads and writes of the registers (10_state.md R19), each as a whole next state. -/

namespace Sys2Proof.Machine

variable {s : State} {rest : List HostAction}

/-! ### The operand registers: the word is stored and nothing else changes -/

theorem step_writeArg {v : Int} (h : s.pending = .writeArg v :: rest) :
    step s = .next { s with pending := rest, arg := BitVec.ofInt s.lenW.bits v } :=
  step_of_pending h

theorem step_writeSrcLen {v : Int} (h : s.pending = .writeSrcLen v :: rest) :
    step s = .next { s with pending := rest, srcLen := BitVec.ofInt s.lenW.bits v } :=
  step_of_pending h

theorem step_writeDstLen {v : Int} (h : s.pending = .writeDstLen v :: rest) :
    step s = .next { s with pending := rest, dstLen := BitVec.ofInt s.lenW.bits v } :=
  step_of_pending h

/-! ### Writes of RESULT and STATUS, and reads: nothing changes but that the act is done -/

theorem step_writeResult {v : Int} (h : s.pending = .writeResult v :: rest) : step s = .next (s.withPending rest) :=
  step_of_pending h

theorem step_writeStatus {v : Word32} (h : s.pending = .writeStatus v :: rest) :
    step s = .next (s.withPending rest) :=
  step_of_pending h

theorem step_readReg {r : Reg} (h : s.pending = .readReg r :: rest) : step s = .next (s.withPending rest) :=
  step_of_pending h

end Sys2Proof.Machine

namespace Sys2Proof.Proofs

open Sys2Proof.Machine

/-- A host read answers the whole word of the register it names. -/
theorem readReg_answers_registers (s : State) :
    s.readReg .cmd = s.cmd ∧ s.readReg .arg = s.arg ∧ s.readReg .result = s.result ∧
      s.readReg .status = s.status ∧ s.readReg .srcLen = s.srcLen ∧ s.readReg .dstLen = s.dstLen :=
  ⟨rfl, rfl, rfl, rfl, rfl, rfl⟩

/-- Settles O34: one clause for each register act of the host, from the rule for that act. -/
theorem hostRegisterAccess : Obligations.HostRegisterAccess := by
  intro s rest
  exact ⟨fun _ h => step_writeArg h, fun _ h => step_writeSrcLen h, fun _ h => step_writeDstLen h,
    fun _ h => step_writeResult h, fun _ h => step_writeStatus h, fun _ h => step_readReg h,
    fun _ hf h => step_writeCmd_of_faulted hf h, readReg_answers_registers s⟩

end Sys2Proof.Proofs
end

