-- ==== Sys2Proof/Proofs/DstOutcomes.lean ====
section
/-! DST after each outcome of each command (20_memory.md R36): written below the count on OK, fresh below DST_LEN on
INVALID_CHAR and on a fault of ENCODE or DECODE, and as it was everywhere else. -/

namespace Sys2Proof.Machine

variable {i : Instr} {s t : State}

/-! ### Outcomes by their STATUS word -/

theorem statusWord_eq_zero {c : Code} {k : Cause} : statusWord c k = 0 ↔ c = .ok ∧ k = .none :=
  statusWord_inj (c' := .ok) (k' := .none)

theorem statusWord_eq_two {c : Code} {k : Cause} : statusWord c k = 2 ↔ c = .invalidChar ∧ k = .none :=
  statusWord_inj (c' := .invalidChar) (k' := .none)

/-! ### Commands that write DST and end OK -/

/-- The command has written this many bytes to DST from index 0 and ended OK. -/
def WroteOk (s t : State) (count : Nat) : Prop :=
  ∃ (bytes : List Byte) (result : Int), bytes.length = count ∧ t = (s.writeDst bytes).finish .ok result

/-- What was written is fixed, and DST is kept from there on (R36 a, b). -/
theorem WroteOk.dst {count : Nat} (h : WroteOk s t count) :
    SameDstFrom count s t ∧ ∀ k, k < count → ∃ b, t.dst.read? k = some b := by
  obtain ⟨bytes, result, rfl, rfl⟩ := h
  refine ⟨fun k hk => ?_, fun k hk => ⟨bytes[k], s.dst.read?_writeBytes_zero bytes k hk⟩⟩
  simp [State.writeDst_dstByte, hk]

/-- An ENCODE that ends OK has written `ceil(8n / 5)` bytes (R73). -/
theorem execEncode_wroteOk (h : execEncode s = .next t) (hst : t.status = 0) :
    WroteOk s t ((8 * s.srcN.toNat + 4) / 5) := by
  obtain ⟨-, ⟨cause, -, rfl⟩ | ⟨e, bytes, -, hb, rfl⟩⟩ := execEncode_next h
  · exact absurd (statusWord_eq_zero.1 hst).1 (by decide)
  · have hlen := ((s.readSrc_eq_some _ _).1 hb).1
    exact ⟨encodeBytes bytes, e, by rw [encodeBytes_length, hlen], rfl⟩

/-- A DECODE that ends OK has written `floor(5n / 8)` bytes (R75). -/
theorem execDecode_wroteOk (h : execDecode s = .next t) (hst : t.status = 0) :
    WroteOk s t (5 * s.srcN.toNat / 8) := by
  obtain ⟨-, ⟨cause, -, rfl⟩ | ⟨len, symbols, hc, hb, ⟨-, rfl⟩ | ⟨bytes, hd, rfl⟩⟩⟩ := execDecode_next h
  · exact absurd (statusWord_eq_zero.1 hst).1 (by decide)
  · exact absurd (statusWord_eq_zero.1 hst).1 (by decide)
  · have hlen := ((s.readSrc_eq_some _ _).1 hb).1
    obtain ⟨-, -, hD, -⟩ := decodeContract_ok hc
    obtain ⟨-, hr, -⟩ := decodedLength_eq_some.1 hD
    exact ⟨bytes, len, by rw [decodeBytes_length (by rwa [hlen]) hd, hlen], rfl⟩

/-! ### Endings that draw DST afresh, and endings that keep it -/

/-- INVALID_CHAR leaves every DST byte below DST_LEN unspecified and keeps the others (R36 c). -/
theorem CommandEnd.dst_of_invalidChar (h : CommandEnd i s t) (hst : t.status = 2) :
    FreshDstBelow s.dstCap.toNat s t ∧ SameDstFrom s.dstCap.toNat s t := by
  cases h with
  | invalidChar => exact ⟨freshDstBelow_havocDst s _, sameDstFrom_havocDst s _⟩
  | entry | length | invalidLength | wrote | fault => exact absurd (statusWord_eq_two.1 hst).1 (by decide)

/-- A fault of a command leaves every DST byte below DST_LEN unspecified and keeps the others (R92): of the six
commands only ENCODE and DECODE fault. -/
theorem CommandEnd.dst_of_faulted (h : CommandEnd i s t) (hf : t.faulted = true) :
    FreshDstBelow s.dstCap.toNat s t ∧ SameDstFrom s.dstCap.toNat s t := by
  cases h with
  | fault cause =>
    have hentry := faultEntry_raiseFault s .used cause
    exact ⟨hentry.below, hentry.above⟩
  | entry | length | invalidLength | wrote | invalidChar =>
    rw [State.finish_faulted] at hf
    exact absurd hf (by decide)

/-- A command other than ENCODE and DECODE does not touch DST (R36 e). -/
theorem CommandEnd.sameDst (h : CommandEnd i s t) (he : i ≠ .encode) (hd : i ≠ .decode) : SameDst s t := by
  cases h with
  | entry | length | invalidLength => exact fun k => State.finish_dstByte ..
  | wrote _ _ _ hc => exact absurd hc (by simp [he, hd])
  | invalidChar _ hc => exact absurd hc hd
  | fault _ _ _ hc => exact absurd hc (by simp [he, hd])

/-- A fault of a word that uses no buffer keeps DST (R92). -/
theorem sameDst_raiseFault_unused (s : State) (cause : Cause) : SameDst s (s.raiseFault .unused cause) :=
  fun k => (faultEntry_raiseFault s .unused cause).above k (Nat.zero_le k)

/-- A live block that is given an illegal word faults ILLEGAL_COMMAND (R55). -/
theorem step_writeCmd_of_not_legal {w : Word32} {rest : List HostAction} (hf : s.faulted = false)
    (hp : s.pending = .writeCmd w :: rest) (hw : isLegal w = false) :
    step s = .next (((s.withPending rest).storeCmd w).raiseFault .unused .illegalCommand) := by
  cases hd : decodeCmd w with
  | ok i => rw [isLegal_of_ok hd] at hw; cases hw
  | error r => exact step_writeCmd_of_illegal hf hp hd

end Sys2Proof.Machine

namespace Sys2Proof.Proofs

open Sys2Proof.Machine

/-- Settles O28: the OK endings from what ENCODE and DECODE have written, the others from the ways a command can end,
and the illegal word from its fault. -/
theorem dstAfterEachOutcome : Obligations.DstAfterEachOutcome := by
  refine ⟨fun i s t h => ⟨?encodeOk, ?decodeOk, fun _ hst => (exec_next h).dst_of_invalidChar hst,
    fun hf _ => (exec_next h).dst_of_faulted hf, (exec_next h).sameDst⟩, ?illegal⟩
  case encodeOk =>
    rintro rfl hst
    exact (execEncode_wroteOk h hst).dst
  case decodeOk =>
    rintro rfl hst
    exact (execDecode_wroteOk h hst).dst
  case illegal =>
    intro s t w rest hp hf hw h
    rw [step_writeCmd_of_not_legal hf hp hw] at h
    cases h
    exact sameDst_raiseFault_unused ((s.withPending rest).storeCmd w) .illegalCommand

end Sys2Proof.Proofs
end

