-- ==== Sys2Proof/Proofs/BuffersApart.lean ====
section
/-! SRC and DST are distinct (20_memory.md R43): what changes SRC, and commands over overlapping buffers. -/

namespace Sys2Proof.Machine

variable {i : Instr} {s t : State}

/-- No command writes SRC, however it ends. -/
theorem CommandEnd.src_eq (h : CommandEnd i s t) : t.src = s.src := by
  cases h with
  | entry | length | invalidLength => exact State.finish_src ..
  | wrote | invalidChar => simp
  | fault => exact State.raiseFault_src ..

theorem issueCommand_src {w : Word32} (h : issueCommand w s = .next t) : t.src = s.src := by
  cases hf : s.faulted with
  | true => rw [issueCommand_of_faulted hf] at h; cases h; rfl
  | false =>
    cases hd : decodeCmd w with
    | error r => rw [issueCommand_of_illegal hf hd] at h; cases h; rfl
    | ok i => rw [issueCommand_of_ok hf hd] at h; exact (exec_next h).src_eq

/-- An act of the host other than FILL SRC and a store of one SRC byte leaves SRC as it was. -/
theorem perform_src {a : HostAction} (h : perform s a = .next t) (hfill : ∀ bytes, a ≠ .fillSrc bytes)
    (hstore : ∀ k b, a ≠ .storeSrc k b) : t.src = s.src := by
  cases a with
  | writeCmd w => exact issueCommand_src h
  | fillSrc bytes => exact absurd rfl (hfill bytes)
  | storeSrc k b => exact absurd rfl (hstore k b)
  | storeDst k b => obtain ⟨-, rfl⟩ := storeBuffer_next h; rfl
  | writeArg | writeResult | writeStatus | writeSrcLen | writeDstLen | readReg | readDst | reset => cases h; rfl

theorem execEncode_of_overlapping (hp : s.placement = .overlapping) : execEncode s = .refused .overlappingBuffers := by
  simp [execEncode, hp]

theorem execDecode_of_overlapping (hp : s.placement = .overlapping) : execDecode s = .refused .overlappingBuffers := by
  simp [execDecode, hp]

end Sys2Proof.Machine

namespace Sys2Proof.Proofs

open Sys2Proof.Machine

/-- Settles O32: a step is one act of the host, and only its two stores into SRC reach SRC. -/
theorem overlapIsRefused : Obligations.OverlapIsRefused := by
  refine ⟨fun s t h hfill hstore => ?_, fun s hp => ⟨execEncode_of_overlapping hp, execDecode_of_overlapping hp⟩⟩
  cases hp : s.pending with
  | nil => rw [step_of_idle hp] at h; cases h; rfl
  | cons a rest =>
    rw [step_of_pending hp] at h
    simp only [hp, List.head?_cons, ne_eq, Option.some.injEq] at hfill hstore
    exact perform_src (s := s.withPending rest) h hfill hstore

end Sys2Proof.Proofs
end

