-- ==== Sys2Proof/Proofs/CommandWords.lean ====
section
/-! Command words and the commands they stand for: encoding is one to one onto the legal words (30_encoding.md R55,
R56). -/

namespace Sys2Proof

theorem isLegal_iff_decodes {w : Word32} : isLegal w = true ↔ ∃ i, decodeCmd w = .ok i := by
  refine ⟨fun h => ?_, fun ⟨_, hi⟩ => isLegal_of_ok hi⟩
  cases hd : decodeCmd w with
  | ok i => exact ⟨i, rfl⟩
  | error r => rw [isLegal_of_error hd] at h; cases h

/-- Which words are illegal, as numbers, in the order of the clauses of R55. -/
theorem isLegal_eq_false_iff (w : Word32) :
    isLegal w = false ↔
      (w.toNat % 16 = 0 ∨ 7 ≤ w.toNat % 16) ∨ w.toNat / 16 % 16 ≠ 0 ∨ w.toNat / 65536 ≠ 0 ∨
      (w.toNat % 16 = 1 ∧ w.toNat / 8192 % 8 ≠ 0) ∨
      (3 ≤ w.toNat % 16 ∧ w.toNat % 16 ≤ 6 ∧ w.toNat / 256 % 256 ≠ 0) := by
  rw [← Bool.not_eq_true, isLegal_iff]
  omega

theorem decodeCmd_encodeCmd (i : Instr) : decodeCmd (encodeCmd i) = .ok i := by
  cases i with
  | symbolof v => revert v; decide +kernel
  | valueof c => revert c; decide +kernel
  | enclen | declen | encode | decode => decide

/-- No bit of a legal word is dropped: a word that decodes is the word of its command. -/
theorem encodeCmd_of_decodeCmd {w : Word32} {i : Instr} (h : decodeCmd w = .ok i) : encodeCmd i = w := by
  apply BitVec.eq_of_toNat_eq
  rw [decodeCmd_eq] at h
  split_ifs at h <;> cases h
  · -- SYMBOLOF
    rw [encodeCmd_symbolof_toNat, BitVec.toNat_ofNat]
    omega
  · -- VALUEOF
    rw [encodeCmd_valueof_toNat, BitVec.toNat_ofNat]
    omega
  -- the four commands whose word is a constant
  all_goals
    simp only [encodeCmd, BitVec.toNat_ofNat]
    omega

theorem decodeCmd_eq_ok_iff {w : Word32} {i : Instr} : decodeCmd w = .ok i ↔ encodeCmd i = w :=
  ⟨encodeCmd_of_decodeCmd, fun h => h ▸ decodeCmd_encodeCmd i⟩

theorem encodeCmd_injective : Function.Injective encodeCmd := fun i _ h =>
  Except.ok.inj ((decodeCmd_encodeCmd i).symm.trans (decodeCmd_eq_ok_iff.2 h.symm))

/-- The legal words are the words of the commands. -/
theorem isLegal_iff_encodes {w : Word32} : isLegal w = true ↔ ∃ i, encodeCmd i = w :=
  isLegal_iff_decodes.trans (exists_congr fun _ => decodeCmd_eq_ok_iff)

end Sys2Proof
end

