-- ==== Sys2Proof/Proofs/OpcodeMap.lean ====
section
/-! The opcode map against the decoder (30_encoding.md section 4): every legal word is of exactly one row, and no
other word is of any. With it, what an illegal word does (R55). -/

namespace Sys2Proof

variable {r r' : OpcodeRow} {w : Word32}

/-- The row fixes the field of `len` bits from bit `start` to be `x`: its mask has every bit of the field. -/
abbrev OpcodeRow.Fixes (r : OpcodeRow) (start len : Nat) (x : BitVec len) : Prop :=
  r.mask.extractLsb' start len = BitVec.allOnes len ∧ r.value.extractLsb' start len = x

theorem OpcodeRow.Fixes.of_covers {start len : Nat} {x : BitVec len} (hx : r.Fixes start len x)
    (h : r.covers w = true) : w.extractLsb' start len = x := by
  obtain ⟨hmask, hvalue⟩ := hx
  have hw : w &&& r.mask = r.value := eq_of_beq h
  rw [← hvalue, ← hw, BitVec.extractLsb'_and, hmask, BitVec.and_allOnes]

/-- Every row fixes the reserved bits to 0, its OP, and the bits that OP needs to be 0 (R55). -/
theorem opcodeMap_fixes : ∀ r ∈ opcodeMap,
    r.Fixes 16 16 0 ∧ r.Fixes 4 4 0 ∧ r.Fixes 0 4 (fieldOp r.value) ∧
      (((fieldOp r.value).toNat = 1 ∧ r.Fixes 13 3 0) ∨ (fieldOp r.value).toNat = 2 ∨
        (3 ≤ (fieldOp r.value).toNat ∧ (fieldOp r.value).toNat ≤ 6 ∧ r.Fixes 8 8 0)) := by decide

theorem opcodeMap_op_injective :
    ∀ r ∈ opcodeMap, ∀ r' ∈ opcodeMap, fieldOp r.value = fieldOp r'.value → r = r' := by decide

theorem fieldOp_of_covers (hr : r ∈ opcodeMap) (h : r.covers w = true) : fieldOp w = fieldOp r.value := by
  obtain ⟨-, -, hop, -⟩ := opcodeMap_fixes r hr
  exact hop.of_covers h

/-- Rows never overlap: a word's OP names its row. -/
theorem opcodeMap_row_unique (hr : r ∈ opcodeMap) (hr' : r' ∈ opcodeMap) (h : r.covers w = true)
    (h' : r'.covers w = true) : r = r' :=
  opcodeMap_op_injective r hr r' hr' ((fieldOp_of_covers hr h).symm.trans (fieldOp_of_covers hr' h'))

theorem isLegal_of_covers (hr : r ∈ opcodeMap) (h : r.covers w = true) : isLegal w = true := by
  obtain ⟨hrsv1, hrsv0, -, hbits⟩ := opcodeMap_fixes r hr
  rw [← fieldOp_of_covers hr h, fieldOp_toNat] at hbits
  refine (isLegal_iff w).2
    ⟨(fieldRsv1_eq_zero w).1 (hrsv1.of_covers h), (fieldRsv0_eq_zero w).1 (hrsv0.of_covers h), ?_⟩
  rcases hbits with ⟨hop, hhigh⟩ | hop | ⟨hlo, hhi, himm⟩
  · exact .inl ⟨hop, (fieldVHigh_eq_zero w).1 (hhigh.of_covers h)⟩
  · exact .inr (.inl hop)
  · exact .inr (.inr ⟨hlo, hhi, (fieldImm8_eq_zero w).1 (himm.of_covers h)⟩)

/-- The word of every command is of a row of the opcode map. -/
theorem exists_row_covers_encodeCmd (i : Instr) : ∃ r ∈ opcodeMap, r.covers (encodeCmd i) = true := by
  have hrow : Laws.OpcodeRow.Statement i :=
    match i with
    | .symbolof v => Laws.OpcodeRow.symbolof v
    | .valueof c => Laws.OpcodeRow.valueof c
    | .enclen => Laws.OpcodeRow.enclen
    | .declen => Laws.OpcodeRow.declen
    | .encode => Laws.OpcodeRow.encode
    | .decode => Laws.OpcodeRow.decode
  obtain ⟨r, hr, -, hc⟩ := hrow
  exact ⟨r, hr, hc⟩

/-- "Every word either matches exactly one row ... or is illegal" (R55). -/
theorem isLegal_iff_unique_row (w : Word32) : isLegal w = true ↔ ∃! r, r ∈ opcodeMap ∧ r.covers w = true := by
  constructor
  · intro h
    obtain ⟨i, rfl⟩ := isLegal_iff_encodes.1 h
    obtain ⟨r, hr, hc⟩ := exists_row_covers_encodeCmd i
    exact ⟨r, ⟨hr, hc⟩, fun r' ⟨hr', hc'⟩ => opcodeMap_row_unique hr' hr hc' hc⟩
  · rintro ⟨r, ⟨hr, hc⟩, -⟩
    exact isLegal_of_covers hr hc

end Sys2Proof

namespace Sys2Proof.Proofs

open Sys2Proof.Machine

/-- Settles O2: the illegal words from `decode_cmd`, their fault from fault entry without buffers, and the rows from
the opcode map. -/
theorem illegalWordsFaultAndAreExactly : Obligations.IllegalWordsFaultAndAreExactly := by
  refine ⟨isLegal_eq_false_iff, fun s w rest hf hw hp => ?_, isLegal_iff_unique_row, by decide, fun w => rfl⟩
  rw [step_writeCmd_of_not_legal hf hp hw, State.raiseFault_unused]
  rfl

end Sys2Proof.Proofs
end

