-- ==== Sys2Proof/Proofs/LegalWords.lean ====
section
/-! `decode_cmd` case by case, and the 292 legal words (30_encoding.md R56). -/

namespace Sys2Proof

/-! ### The list of the legal words -/

/-- The six commands with every operand. -/
def allCommands : List Instr :=
  (List.finRange 32).map (fun v => .symbolof (.ofFin v)) ++ (List.finRange 256).map (fun c => .valueof (.ofFin c)) ++
    [.enclen, .declen, .encode, .decode]

theorem mem_allCommands (i : Instr) : i ∈ allCommands := by
  cases i with
  | symbolof | valueof | enclen | declen | encode | decode => simp [allCommands]

theorem allCommands_nodup : allCommands.Nodup := by
  have hsymbolof : ((List.finRange 32).map fun v => Instr.symbolof (.ofFin v)).Nodup :=
    (List.nodup_finRange 32).map fun _ _ h => by simpa using h
  have hvalueof : ((List.finRange 256).map fun c => Instr.valueof (.ofFin c)).Nodup :=
    (List.nodup_finRange 256).map fun _ _ h => by simpa using h
  refine (hsymbolof.append hvalueof ?_).append (by decide) ?_
  · simp [List.Disjoint]
  · simp only [List.Disjoint, List.mem_append, List.mem_map]
    rintro _ (⟨v, -, rfl⟩ | ⟨c, -, rfl⟩) <;> simp

theorem allCommands_length : allCommands.length = 292 := by simp [allCommands]

/-- The words of the commands, which are the legal words. -/
def legalWords : List Word32 := allCommands.map encodeCmd

theorem isLegal_iff_mem_legalWords (w : Word32) : isLegal w = true ↔ w ∈ legalWords := by
  simp [isLegal_iff_encodes, legalWords, mem_allCommands]

theorem legalWords_nodup : legalWords.Nodup := allCommands_nodup.map encodeCmd_injective

theorem legalWords_length : legalWords.length = 292 := (List.length_map _).trans allCommands_length

end Sys2Proof

namespace Sys2Proof.Proofs

/-- Settles O3: each case is a branch of `decodeCmd_eq` or a clause of R55, and the list is that of the words of all
commands. -/
theorem decodingIsTotalWith292LegalWords : Obligations.DecodingIsTotalWith292LegalWords := by
  refine ⟨fun w h => (isLegal_eq_false_iff w).2 (by omega), fun w hrsv1 hrsv0 => ?_,
    legalWords, legalWords_nodup, legalWords_length, isLegal_iff_mem_legalWords⟩
  have hdecode := decodeCmd_eq w
  rw [if_neg (by omega)] at hdecode
  refine ⟨fun hop hv => ?symbolHigh, fun hop hv => ?symbolof, fun hop => ?valueof, fun hlo hhi him => ?immediate,
    fun hop him => ?enclen, fun hop him => ?declen, fun hop him => ?encode, fun hop him => ?decode,
    fun hop => ?reserved⟩
  case symbolHigh | immediate | reserved => exact (isLegal_eq_false_iff w).2 (by omega)
  case symbolof => simpa [hop, hv] using hdecode
  case valueof => simpa [hop] using hdecode
  case enclen | declen | encode | decode => simpa [hop, him] using hdecode

end Sys2Proof.Proofs
end

