-- ==== Sys2Proof/Proofs/Tables.lean ====
section
/-! The contents of FWD and REV (40_tables.md sections 1 and 2). FWD is the alphabet, its injectivity is that REV
inverts it, and REV is settled by the construction of R64. -/

namespace Sys2Proof.Machine

/-! ### FWD -/

theorem fwd_eq_letterOf : ∀ v : SymbolValue, fwd v = letterOf v := by decide +kernel

/-- The alphabet has a character for every symbol value, so no default is ever taken. -/
theorem alphabet_getElem? (v : SymbolValue) : alphabet[v.toNat]? = some (alphabet.getD v.toNat ' ') := by
  have hlt : v.toNat < alphabet.length := v.isLt
  rw [List.getElem?_eq_getElem hlt, List.getD_eq_getElem _ _ hlt]

/-- REV gives the symbol value back, so FWD is one to one. -/
theorem fwd_injective : Function.Injective fwd :=
  Function.LeftInverse.injective (g := fun c => (rev c).setWidth 5) fun v => by simp [rev_fwd]

/-- FWD is onto the alphabet: a character is found at the symbol value of its index. -/
theorem exists_fwd_eq_ascii {c : Char} (hc : c ∈ alphabet) : ∃ v : SymbolValue, fwd v = ascii c := by
  obtain ⟨i, hi, rfl⟩ := List.mem_iff_getElem.1 hc
  refine ⟨⟨i, hi⟩, ?_⟩
  rw [fwd_eq_letterOf]
  exact congrArg ascii (List.getD_eq_getElem _ _ hi)

theorem fwd_not_lowercase : ∀ v : SymbolValue, ¬ (0x61#8 ≤ fwd v ∧ fwd v ≤ 0x7A#8) := by decide +kernel

/-- FWD never yields `I`, `L`, `O` or `U` (R62, R66). -/
theorem fwd_notMem_excluded : ∀ v : SymbolValue, fwd v ∉ [0x49#8, 0x4C#8, 0x4F#8, 0x55#8] := by decide +kernel

theorem fwd_uppercase : ∀ v : SymbolValue, 10 ≤ v.toNat → 0x41#8 ≤ fwd v ∧ fwd v ≤ 0x5A#8 := by decide +kernel

/-! ### REV -/

/-- The hex table of R68 is what the construction of R64 builds. -/
theorem revRom_eq_buildRev : revRom = buildRev := by decide +kernel

theorem buildRev_getElem? (c : Byte) : buildRev[c.toNat]? = some (rev c) := by
  have hlength : revRom.length = 256 := by decide +kernel
  have hlt : c.toNat < revRom.length := hlength ▸ c.isLt
  rw [← revRom_eq_buildRev, rev, List.getElem?_eq_getElem hlt, List.getD_eq_getElem _ _ hlt]

theorem rev_digit : ∀ k < 10, rev (0x30#8 + BitVec.ofNat 8 k) = BitVec.ofNat 8 k := by decide +kernel

theorem rev_letterOf (v : SymbolValue) : rev (letterOf v) = v.setWidth 8 := by rw [← fwd_eq_letterOf, rev_fwd]

/-- Both cases of any of the 26 letters have the same entry, canonical or not (R65 to R67). -/
theorem rev_lowercase : ∀ c : Byte, 0x41#8 ≤ c → c ≤ 0x5A#8 → rev (c + 0x20#8) = rev c := by decide +kernel

theorem rev_letterOf_lowercase {v : SymbolValue} (hv : 10 ≤ v.toNat) :
    rev (letterOf v + 0x20#8) = v.setWidth 8 := by
  obtain ⟨hA, hZ⟩ := fwd_uppercase v hv
  rw [← fwd_eq_letterOf, rev_lowercase _ hA hZ, rev_fwd]

/-- A byte with a valid entry is the character of that entry, its lowercase form, or one of the aliases (R67). -/
theorem spelling_of_rev_valid : ∀ c : Byte, rev c ≠ 0xFF →
    c = letterOf ((rev c).setWidth 5) ∨
      (10 ≤ ((rev c).setWidth 5).toNat ∧ c = letterOf ((rev c).setWidth 5) + 0x20#8) ∨
      c ∈ [0x4F#8, 0x6F#8, 0x49#8, 0x69#8, 0x4C#8, 0x6C#8] := by decide +kernel

end Sys2Proof.Machine

namespace Sys2Proof.Proofs

open Sys2Proof.Machine

/-- Settles O6: FWD is one to one since REV inverts it, and onto since every index is a symbol value. -/
theorem forwardTableIsTheAlphabet : Obligations.ForwardTableIsTheAlphabet := by
  refine ⟨fun v => ?_, fun _ _ h => fwd_injective h, fun _ hc => exists_fwd_eq_ascii hc, fwd_not_lowercase⟩
  rw [alphabet_getElem?, fwd_eq_letterOf]
  rfl

/-- Settles O7, from the equality of the hex table with the construction. -/
theorem reverseTableIsTheConstruction : Obligations.ReverseTableIsTheConstruction :=
  ⟨fun c => (buildRev_getElem? c).symm, fwd_eq_letterOf⟩

/-- Settles O8: the letters since REV inverts FWD and takes both cases alike, and the invalid bytes since a valid entry
names its character. -/
theorem reverseTableEntries : Obligations.ReverseTableEntries := by
  refine ⟨rev_digit, fun v hv => ⟨rev_letterOf v, rev_letterOf_lowercase hv⟩, ?aliases, fun v => ?forward,
    fun c hcanonical halias => ?invalid⟩
  case aliases => decide +kernel
  case forward =>
    have hv := fwd_notMem_excluded v
    simp only [List.mem_cons, not_or] at hv
    obtain ⟨hI, hL, hO, -⟩ := hv
    exact ⟨hO, hI, hL⟩
  case invalid =>
    by_contra hvalid
    rcases spelling_of_rev_valid c hvalid with hupper | ⟨hletter, hlower⟩ | hmem
    · exact (hcanonical _).1 hupper
    · exact (hcanonical _).2 hletter hlower
    · exact halias hmem

end Sys2Proof.Proofs
end

