-- ==== Sys2Proof/Proofs/TableCommands.lean ====
section
/-! SYMBOLOF and VALUEOF (40_tables.md section 3): a table entry in RESULT with OK, and nothing else. -/

namespace Sys2Proof.Machine

variable {s t : State}

theorem exec_symbolof (v : SymbolValue) (s : State) :
    exec (.symbolof v) s = .next (s.finish .ok (fwd v).toNat) := rfl

theorem exec_valueof (c : Byte) (s : State) : exec (.valueof c) s = .next (s.finish .ok (rev c).toNat) := rfl

/-- Ending OK with a natural number changes STATUS and RESULT only (R13). -/
theorem State.finish_ok_natCast (s : State) (n : Nat) :
    s.finish .ok n = { s with status := 0, result := BitVec.ofNat s.lenW.bits n } := by
  have hstatus : statusWord .ok .none = 0 := by decide
  rw [State.finish, State.word, BitVec.ofInt_natCast, hstatus]

/-- A table entry is read back from RESULT as itself: even the narrowest register holds 255. -/
theorem State.finish_byte_resultN (s : State) (c : Code) (b : Byte) : (s.finish c b.toNat).resultN = b.toNat :=
  s.finish_resultN c (by omega) (by have := maxLen_ge s.lenW; have := b.isLt; omega)

theorem resultN_of_exec_symbolof {v : SymbolValue} (h : exec (.symbolof v) s = .next t) :
    t.resultN = (fwd v).toNat := by
  rw [exec_symbolof] at h
  cases h
  exact s.finish_byte_resultN .ok _

theorem resultN_of_exec_valueof {c : Byte} (h : exec (.valueof c) s = .next t) : t.resultN = (rev c).toNat := by
  rw [exec_valueof] at h
  cases h
  exact s.finish_byte_resultN .ok _

/-- Every character of the alphabet is ASCII, so its byte is its whole code. -/
theorem fwd_toNat : ∀ v : SymbolValue, (fwd v).toNat = (alphabet.getD v.toNat ' ').toNat := by decide +kernel

theorem rev_toNat_cases (c : Byte) : (rev c).toNat ≤ 31 ∨ (rev c).toNat = 255 := by
  by_cases h : rev c = 0xFF
  · exact .inr (by rw [h]; rfl)
  · exact .inl (Nat.le_of_lt_succ (rev_toNat_lt h))

end Sys2Proof.Machine

namespace Sys2Proof.Proofs

open Sys2Proof.Machine

/-- Settles O10: the next state from `finish`, the words from the decoder, and the corner cases from FWD. -/
theorem symbolofAnswersTheCharacter : Obligations.SymbolofAnswersTheCharacter := by
  refine ⟨fun v s => ?next, fun v => decodeCmd_encodeCmd (.symbolof v), fun w s rest hop hhigh hf hp => ?illegal,
    fun v s rest hf hp => step_writeCmd_of_faulted hf hp, fun v s t h => ?corners⟩
  case next => rw [exec_symbolof, State.finish_ok_natCast, fwd_toNat]
  case illegal =>
    have hillegal : isLegal w = false := (isLegal_eq_false_iff w).2 (by omega)
    rw [step_writeCmd_of_not_legal hf hp hillegal, State.raiseFault_unused]
    rfl
  case corners =>
    rw [resultN_of_exec_symbolof h]
    refine ⟨?zero, ?last, ?j, ?notLowercase, ?notExcluded⟩
    case zero | last | j => rintro rfl; rfl
    case notLowercase =>
      have hv := fwd_not_lowercase v
      bv_omega
    case notExcluded =>
      have hv := fwd_notMem_excluded v
      simp only [List.mem_cons, List.not_mem_nil, or_false] at hv ⊢
      bv_omega

/-- Settles O11: the next state from `finish` and the construction of REV, the word from the decoder, and the corner
cases from REV. -/
theorem valueofAnswersTheEntry : Obligations.ValueofAnswersTheEntry := by
  refine ⟨fun c s => ?next, fun c => decodeCmd_encodeCmd (.valueof c),
    fun c s rest hf hp => step_writeCmd_of_faulted hf hp, fun c s t h => ?corners,
    fun c s t t' hA hZ h h' => ?bothCases⟩
  case next =>
    rw [exec_valueof, State.finish_ok_natCast, List.getD_eq_getElem?_getD, buildRev_getElem?, Option.getD_some]
  case corners =>
    rw [resultN_of_exec_valueof h]
    refine ⟨?range, ?invalid, ?zero, ?one⟩
    case range => have := rev_toNat_cases c; omega
    case invalid | one =>
      intro hc
      fin_cases hc <;> rfl
    case zero => rintro rfl; rfl
  case bothCases =>
    rw [exec_valueof] at h h'
    rw [rev_lowercase c hA hZ] at h'
    exact Host.Outcome.next.inj (h.symm.trans h')

end Sys2Proof.Proofs
end

