-- ==== Sys2Proof/Proofs/LengthCommands.lean ====
section
/-! ENCLEN and DECLEN (41_length.md section 2): a length in RESULT with OK, or -1 with INVALID_LENGTH, and nothing
else. -/

namespace Sys2Proof.Machine

variable {i : Instr} {s t : State}

/-! ### The two endings of a length command -/

theorem State.finish_ok (s : State) (r : Int) :
    s.finish .ok r = { s with status := 0, result := BitVec.ofInt s.lenW.bits r } := by
  have hstatus : statusWord .ok .none = 0 := by decide
  rw [State.finish, State.word, hstatus]

theorem State.finish_invalidLength (s : State) (r : Int) :
    s.finish .invalidLength r = { s with status := 1, result := BitVec.ofInt s.lenW.bits r } := by
  have hstatus : statusWord .invalidLength .none = 1 := by decide
  rw [State.finish, State.word, hstatus]

theorem outcome_of_finish_ok {r : Int} (h : exec i s = .next t) (hend : exec i s = .next (s.finish .ok r))
    (h0 : 0 ≤ r) (hmax : r ≤ s.lenW.maxLen) : t.status = 0 ∧ t.resultN = r := by
  obtain rfl : t = s.finish .ok r := Host.Outcome.next.inj (h.symm.trans hend)
  exact ⟨statusWord_eq_zero.2 ⟨rfl, rfl⟩, s.finish_resultN .ok (by omega) hmax⟩

theorem outcome_of_finish_invalidLength (h : exec i s = .next t)
    (hend : exec i s = .next (s.finish .invalidLength (-1))) : t.status = 1 ∧ t.resultN = -1 := by
  obtain rfl : t = s.finish .invalidLength (-1) := Host.Outcome.next.inj (h.symm.trans hend)
  exact ⟨by rw [State.finish_status]; decide,
    s.finish_resultN .invalidLength le_rfl (by have := maxLen_ge s.lenW; omega)⟩

/-! ### MAXLEN -/

/-- MAXLEN in terms of the power of two that NMAX_ENC is stated with (R73). -/
theorem maxLen_eq (w : LenW) : w.maxLen = 8 * 2 ^ (w.bits - 4) - 1 := by
  have hbits : w.bits - 1 = w.bits - 4 + 3 := by have := w.atLeast16; omega
  rw [LenW.maxLen, hbits, pow_add]
  omega

theorem argN_le_maxLen (s : State) : s.argN ≤ s.lenW.maxLen := toInt_le_maxLen s.lenW s.arg

/-! ### ENCLEN -/

theorem exec_enclen (s : State) : exec .enclen s = .next (s.finishLength (encodedLength s.lenW s.argN)) := rfl

/-- R72's formula is `ceil(8n / 5)` (R73). -/
theorem encodedLength_formula (n : Int) : n / 5 * 8 + (n % 5 * 8 + 4) / 5 = (8 * n + 4) / 5 := by omega

theorem exec_enclen_of_fits (h0 : 0 ≤ s.argN) (hfits : (8 * s.argN + 4) / 5 ≤ s.lenW.maxLen) :
    exec .enclen s = .next (s.finish .ok ((8 * s.argN + 4) / 5)) := by
  have hcast : (((8 * s.argN.toNat + 4) / 5 : Nat) : Int) = (8 * s.argN + 4) / 5 := by omega
  rw [exec_enclen, encodedLength_eq_some.2 ⟨h0, rfl, hcast ▸ hfits⟩, ← hcast]
  rfl

theorem exec_enclen_of_invalid (h : s.argN < 0 ∨ s.lenW.maxLen < (8 * s.argN + 4) / 5) :
    exec .enclen s = .next (s.finish .invalidLength (-1)) := by
  rw [exec_enclen, encodedLength_eq_none.2 (by omega)]
  rfl

/-! ### DECLEN -/

theorem exec_declen (s : State) : exec .declen s = .next (s.finishLength (decodedLength s.argN)) := rfl

theorem validRemainder_toNat_iff {n : Int} (h0 : 0 ≤ n) :
    ValidRemainder n.toNat ↔ n % 8 = 0 ∨ n % 8 = 2 ∨ n % 8 = 4 ∨ n % 8 = 5 ∨ n % 8 = 7 := by
  rw [ValidRemainder]
  omega

theorem exec_declen_of_valid (h0 : 0 ≤ s.argN)
    (hr : s.argN % 8 = 0 ∨ s.argN % 8 = 2 ∨ s.argN % 8 = 4 ∨ s.argN % 8 = 5 ∨ s.argN % 8 = 7) :
    exec .declen s = .next (s.finish .ok (5 * s.argN / 8)) := by
  have hcast : ((5 * s.argN.toNat / 8 : Nat) : Int) = 5 * s.argN / 8 := by omega
  rw [exec_declen, decodedLength_eq_some.2 ⟨h0, (validRemainder_toNat_iff h0).2 hr, rfl⟩, ← hcast]
  rfl

theorem exec_declen_of_invalid (h : s.argN < 0 ∨ s.argN % 8 = 1 ∨ s.argN % 8 = 3 ∨ s.argN % 8 = 6) :
    exec .declen s = .next (s.finish .invalidLength (-1)) := by
  have hnone : s.argN < 0 ∨ ¬ ValidRemainder s.argN.toNat := by
    rw [or_iff_not_imp_left, not_lt]
    intro h0
    rw [validRemainder_toNat_iff h0]
    omega
  rw [exec_declen, decodedLength_eq_none.2 hnone]
  rfl

end Sys2Proof.Machine

namespace Sys2Proof.Proofs

open Sys2Proof.Machine

/-- Settles O14: R72's formula is `ceil(8n / 5)`, which decides how ENCLEN ends; MAXLEN is `8 * 2^(LEN_W-4) - 1`, so
that NMAX_ENC is the last length that fits. -/
theorem enclenAnswersTheEncodedLength : Obligations.EnclenAnswersTheEncodedLength := by
  refine ⟨fun s => ?next, decodeCmd_encodeCmd .enclen, fun w hop hw => ?illegal,
    fun s rest hf hp => step_writeCmd_of_faulted hf hp, fun s t h => ?corners⟩
  case next =>
    rw [encodedLength_formula, ← State.finish_invalidLength, ← State.finish_ok]
    exact ⟨exec_enclen_of_invalid, exec_enclen_of_fits⟩
  case illegal =>
    have hne : w.toNat ≠ 3 := fun h3 => hw (BitVec.eq_of_toNat_eq h3)
    have hlt := w.isLt
    rw [isLegal_eq_false_iff]
    omega
  case corners =>
    have hmax := maxLen_eq s.lenW
    have hge := maxLen_ge s.lenW
    have ok (h0 : 0 ≤ s.argN) (hfits : (8 * s.argN + 4) / 5 ≤ s.lenW.maxLen) :=
      outcome_of_finish_ok h (exec_enclen_of_fits h0 hfits) (by omega) hfits
    have invalid (hover : s.lenW.maxLen < (8 * s.argN + 4) / 5) :=
      outcome_of_finish_invalidLength h (exec_enclen_of_invalid (.inr hover))
    refine ⟨fun hn => ?zero, fun hn => ?nineteen, fun hn => ?nmax, fun hn => invalid (by omega),
      fun hn => invalid (by omega)⟩
    case zero | nineteen | nmax =>
      obtain ⟨hstatus, hresult⟩ := ok (by omega) (by omega)
      exact ⟨hstatus, by omega⟩

/-- Settles O15: the remainder decides how DECLEN ends, and with R74's `extra` the length is `floor(5n / 8)`; MAXLEN
has the valid remainder 7. -/
theorem declenAnswersTheDecodedLength : Obligations.DeclenAnswersTheDecodedLength := by
  refine ⟨fun s => ⟨fun h => ?invalid, fun extra h0 hextra => ?ok⟩, decodeCmd_encodeCmd .declen,
    fun w hw => (encodeCmd_of_decodeCmd hw).symm, fun s rest hf hp => step_writeCmd_of_faulted hf hp,
    fun s t h => ?corners⟩
  case invalid => rw [exec_declen_of_invalid h, State.finish_invalidLength]
  case ok =>
    simp only [List.mem_cons, Prod.mk.injEq, List.not_mem_nil, or_false] at hextra
    have hlength : s.argN / 8 * 5 + extra = 5 * s.argN / 8 := by omega
    rw [hlength, ← State.finish_ok]
    exact exec_declen_of_valid h0 (by omega)
  case corners =>
    have hle := argN_le_maxLen s
    have ok (h0 : 0 ≤ s.argN) hr := outcome_of_finish_ok h (exec_declen_of_valid h0 hr) (by omega) (by omega)
    refine ⟨fun p hp hn => ?lengths, fun hn => ?none, fun hn => ?maxLen⟩
    case lengths =>
      have hvalues : 0 ≤ p.1 ∧ (p.1 % 8 = 0 ∨ p.1 % 8 = 2 ∨ p.1 % 8 = 4 ∨ p.1 % 8 = 5 ∨ p.1 % 8 = 7) ∧
          5 * p.1 / 8 = p.2 := by
        fin_cases hp <;> decide
      rw [← hn] at hvalues
      obtain ⟨h0, hr, hlength⟩ := hvalues
      exact hlength ▸ ok h0 hr
    case none =>
      simp only [List.mem_cons, List.not_mem_nil, or_false] at hn
      exact outcome_of_finish_invalidLength h (exec_declen_of_invalid (by omega))
    case maxLen =>
      have hmax := maxLen_eq s.lenW
      have hge := maxLen_ge s.lenW
      exact (ok (by omega) (by omega)).1

end Sys2Proof.Proofs
end

