-- ==== Sys2Proof/Proofs/DataErrors.lean ====
section
/-! The two data-quality errors (60_exceptions.md R89): which commands end with INVALID_LENGTH and INVALID_CHAR and
when, and that the next command runs after either. -/

namespace Sys2Proof.Machine

variable {i : Instr} {s t : State}

/-! ### INVALID_LENGTH -/

theorem statusWord_eq_one {c : Code} {k : Cause} : statusWord c k = 1 ↔ c = .invalidLength ∧ k = .none :=
  statusWord_inj (c' := .invalidLength) (k' := .none)

theorem lengthCode_eq_invalidLength {len : Option Nat} : lengthCode len = .invalidLength ↔ len = none := by
  cases len <;> simp [lengthCode]

theorem State.finishLength_status_eq_one {len : Option Nat} : (s.finishLength len).status = 1 ↔ len = none := by
  rw [State.finishLength_status, statusWord_eq_one, lengthCode_eq_invalidLength]
  simp

theorem status_of_enclen_eq_one (h : exec .enclen s = .next t) :
    t.status = 1 ↔ s.argN < 0 ∨ s.lenW.maxLen < s.argN / 5 * 8 + (s.argN % 5 * 8 + 4) / 5 := by
  rw [exec_enclen] at h
  cases h
  rw [State.finishLength_status_eq_one, encodedLength_eq_none, encodedLength_formula]
  omega

theorem status_of_declen_eq_one (h : exec .declen s = .next t) :
    t.status = 1 ↔ s.argN < 0 ∨ s.argN % 8 = 1 ∨ s.argN % 8 = 3 ∨ s.argN % 8 = 6 := by
  rw [exec_declen] at h
  cases h
  rw [State.finishLength_status_eq_one, decodedLength_eq_none, ValidRemainder]
  omega

/-- Only the length commands end with INVALID_LENGTH. -/
theorem CommandEnd.command_of_invalidLength (h : CommandEnd i s t) (hst : t.status = 1) :
    i = .enclen ∨ i = .declen := by
  cases h with
  | invalidLength command => exact command
  | entry | length | wrote | invalidChar | fault => exact absurd (statusWord_eq_one.1 hst).1 (by decide)

/-! ### INVALID_CHAR -/

/-- Only DECODE ends with INVALID_CHAR. -/
theorem CommandEnd.command_of_invalidChar (h : CommandEnd i s t) (hst : t.status = 2) : i = .decode := by
  cases h with
  | invalidChar _ command => exact command
  | entry | length | invalidLength | wrote | fault => exact absurd (statusWord_eq_two.1 hst).1 (by decide)

/-- A DECODE that ends with INVALID_CHAR had bad content: a symbol outside the alphabet or a set tail bit (R83, R85). -/
theorem content_of_decode_invalidChar {symbols : List Byte} (h : execDecode s = .next t) (hst : t.status = 2)
    (hs : SrcProvided s symbols) (hn : s.srcN = symbols.length) :
    ¬ (AllSymbolsValid symbols ∧ TailBitsZero symbols) := by
  obtain ⟨-, ⟨cause, -, rfl⟩ | ⟨len, read, hc, hread, ⟨hbad, rfl⟩ | ⟨bytes, -, rfl⟩⟩⟩ := execDecode_next h
  · exact absurd (statusWord_eq_two.1 hst).1 (by decide)
  · obtain rfl : symbols = read := Option.some.inj ((readSrc_of_provided hs hn).symm.trans hread)
    obtain ⟨-, -, hlen, -⟩ := decodeContract_ok hc
    obtain ⟨-, hr, -⟩ := decodedLength_eq_some.1 hlen
    rw [hn, Int.toNat_natCast] at hr
    exact (decodeGroups_eq_none _ symbols rfl hr).1 hbad
  · exact absurd (statusWord_eq_two.1 hst).1 (by decide)

/-! ### After either -/

/-- A command that ends with CODE 1 or 2 has finished with RESULT -1. -/
theorem CommandEnd.finish_of_dataError (h : CommandEnd i s t) (hcode : statusCode t.status ∈ [1#2, 2#2]) :
    ∃ (u : State) (code : Code), code ≠ .faulted ∧ t = u.finish code (-1) := by
  cases h with
  | invalidLength => exact ⟨_, _, by decide, rfl⟩
  | invalidChar => exact ⟨_, _, by decide, rfl⟩
  | entry | length | wrote =>
    rw [State.finish_status, statusCode_statusWord] at hcode
    exact absurd hcode (by decide)
  | fault =>
    rw [State.raiseFault_status, statusCode_statusWord] at hcode
    exact absurd hcode (by decide)

theorem State.finish_faulted_of_ne (s : State) {c : Code} (r : Int) (hc : c ≠ .faulted) :
    (s.finish c r).faulted = false := by
  rw [State.finish_faulted]
  exact beq_false_of_ne hc

theorem State.finish_neg_one_resultN (s : State) (c : Code) : (s.finish c (-1)).resultN = -1 :=
  s.finish_resultN c le_rfl (by have := maxLen_ge s.lenW; omega)

end Sys2Proof.Machine

namespace Sys2Proof.Proofs

open Sys2Proof.Machine

/-- Settles O29: the commands from the ways a command can end, the conditions from the length functions and the
decoder, and the next command from the block not being FAULTED. -/
theorem dataErrorsAreRecoverable : Obligations.DataErrorsAreRecoverable := by
  intro i s t h
  refine ⟨⟨fun hst => ?command, ?condition⟩, fun hst => ?content, fun hcode => ?after⟩
  case command =>
    obtain rfl | rfl := (exec_next h).command_of_invalidLength hst
    · exact .inl ⟨rfl, (status_of_enclen_eq_one h).1 hst⟩
    · exact .inr ⟨rfl, (status_of_declen_eq_one h).1 hst⟩
  case condition =>
    rintro (⟨rfl, hn⟩ | ⟨rfl, hn⟩)
    · exact (status_of_enclen_eq_one h).2 hn
    · exact (status_of_declen_eq_one h).2 hn
  case content =>
    obtain rfl := (exec_next h).command_of_invalidChar hst
    exact ⟨rfl, fun symbols hs hn => content_of_decode_invalidChar h hst hs hn⟩
  case after =>
    obtain ⟨u, code, hne, rfl⟩ := (exec_next h).finish_of_dataError hcode
    have hlive := u.finish_faulted_of_ne (-1) hne
    exact ⟨statusCause_statusWord code .none, u.finish_neg_one_resultN code, hlive,
      fun w j rest hp hd => step_writeCmd_of_ok hlive hp hd⟩

end Sys2Proof.Proofs
end

