-- ==== Sys2Proof/Proofs/FaultEntry.lean ====
section
/-! The way into FAULTED (60_exceptions.md R92): a step into it is fault entry at the state in which the host's act is
done and CMD holds the word. -/

namespace Sys2Proof.Machine

variable {i : Instr} {s t : State}

/-! ### Whether the word of a command uses the buffers -/

/-- A fault of this word touches DST: it is ENCODE's or DECODE's (R31, R92). -/
def wordBuffers (w : Word32) : Buffers :=
  if w = encodeCmd .encode ∨ w = encodeCmd .decode then .used else .unused

theorem havocBelow_wordBuffers (w : Word32) :
    (wordBuffers w).havocBelow s = if w = 0x00000005#32 ∨ w = 0x00000006#32 then s.dstCap.toNat else 0 :=
  apply_ite (Buffers.havocBelow s) ..

theorem wordBuffers_of_illegal {w : Word32} (h : isLegal w = false) : wordBuffers w = .unused := by
  refine if_neg ?_
  rintro (rfl | rfl) <;> exact absurd h (by decide)

theorem wordBuffers_of_bufferCommand {w : Word32} (h : decodeCmd w = .ok i) (hi : i = .encode ∨ i = .decode) :
    wordBuffers w = .used := by
  rw [← encodeCmd_of_decodeCmd h]
  exact if_pos (hi.imp (congrArg encodeCmd) (congrArg encodeCmd))

/-! ### A step into FAULTED -/

/-- Of the endings of a command only a contract violation of ENCODE or DECODE is FAULTED. -/
theorem CommandEnd.raiseFault_of_faulted (h : CommandEnd i s t) (hf : t.faulted = true) :
    (i = .encode ∨ i = .decode) ∧ ∃ cause, cause ≠ .none ∧ t = s.raiseFault .used cause := by
  cases h with
  | fault cause known _ command =>
    refine ⟨command.symm.imp And.left id, cause, ?_, rfl⟩
    rintro rfl
    exact absurd known (by decide)
  | entry | length | invalidLength | wrote | invalidChar =>
    rw [State.finish_faulted] at hf
    exact absurd hf (by decide)

/-- A step into FAULTED is a write of CMD, and what it does is fault entry (R92). -/
theorem StepEnd.raiseFault_of_faulted (h : StepEnd s t) (hlive : s.faulted = false) (hf : t.faulted = true) :
    ∃ (w : Word32) (rest : List HostAction) (cause : Cause), s.pending = .writeCmd w :: rest ∧ cause ≠ .none ∧
      t = ((s.withPending rest).storeCmd w).raiseFault (wordBuffers w) cause := by
  cases h with
  | idle | noEffect | register | buffer => exact absurd hf (ne_true_of_eq_false hlive)
  | reset rest => exact absurd hf (ne_true_of_eq_false (State.hostReset_faulted _))
  | illegal w rest act _ word => exact ⟨w, rest, .illegalCommand, act, by decide, by rw [wordBuffers_of_illegal word]⟩
  | command w rest i act _ word ends =>
    obtain ⟨hi, cause, hne, rfl⟩ := ends.raiseFault_of_faulted hf
    exact ⟨w, rest, cause, act, hne, by rw [wordBuffers_of_bufferCommand word hi]⟩

/-- The causes of a fault have the values 1 to 5 (R90). -/
theorem cause_value_mem {cause : Cause} (h : cause ≠ .none) :
    cause.value.setWidth 32 ∈ [1#32, 2#32, 3#32, 4#32, 5#32] := by
  cases cause with
  | none => exact absurd rfl h
  | illegalCommand | badBufferLength | emptySource | badSourceLength | dstTooSmall => decide

end Sys2Proof.Machine

namespace Sys2Proof.Proofs

open Sys2Proof.Machine

/-- Settles O36: a step into FAULTED is `raiseFault` with the buffers of its word, which is fault entry. -/
theorem faultEntryIsExact : Obligations.FaultEntryIsExact := by
  intro s t h hlive hf
  obtain ⟨w, rest, cause, act, hne, rfl⟩ := (step_next h).raiseFault_of_faulted hlive hf
  refine ⟨w, rest, cause.value.setWidth 32, act, cause_value_mem hne, ?_⟩
  have hentry := faultEntry_raiseFault ((s.withPending rest).storeCmd w) (wordBuffers w) cause
  rwa [havocBelow_wordBuffers] at hentry

end Sys2Proof.Proofs
end

