-- ==== Sys2Proof/Proofs/FaultedState.lean ====
section
/-! While FAULTED (60_exceptions.md R93), and the way out of it (R94). -/

namespace Sys2Proof.Machine

variable {s t : State} {rest : List HostAction}

/-- No step but reset ends a command in a FAULTED block: CMD, RESULT and STATUS stay (R93). -/
theorem StepEnd.outcome_of_faulted (h : StepEnd s t) (hf : s.faulted = true)
    (hreset : s.pending.head? ≠ some .reset) : t.cmd = s.cmd ∧ t.resultN = s.resultN ∧ t.status = s.status := by
  cases h with
  | idle | noEffect | register | buffer => exact ⟨rfl, rfl, rfl⟩
  | reset rest act => exact absurd (by rw [act]; rfl) hreset
  | illegal _ _ _ live | command _ _ _ _ live => exact absurd hf (ne_true_of_eq_false live)

theorem faulted_of_status_eq (h : t.status = s.status) (hf : s.faulted = true) : t.faulted = true := by
  rwa [State.faulted, h]

theorem step_reset (h : s.pending = .reset :: rest) : step s = .next (s.withPending rest).hostReset :=
  step_of_pending h

end Sys2Proof.Machine

namespace Sys2Proof.Proofs

open Sys2Proof.Machine

/-- Settles O38: each act from its rule, and the rest from the ways a step can end, none of which but reset changes
STATUS while FAULTED. -/
theorem faultedIgnoresCommands : Obligations.FaultedIgnoresCommands := by
  intro s rest hf
  refine ⟨fun _ h => step_writeCmd_of_faulted hf h, fun _ h => step_writeArg h, fun _ h => step_writeSrcLen h,
    fun _ h => step_writeDstLen h, fun _ h => step_readReg h, fun t h hreset => ?_⟩
  obtain ⟨hcmd, hresult, hstatus⟩ := (step_next h).outcome_of_faulted hf hreset
  have hfaulted := faulted_of_status_eq hstatus hf
  exact ⟨hcmd, hresult, hstatus, ne_false_of_eq_true hfaulted⟩

/-- Settles O39: every step but reset keeps STATUS while FAULTED, and reset clears it. -/
theorem onlyResetLeavesFaulted : Obligations.OnlyResetLeavesFaulted := by
  refine ⟨fun s t hf h hlive => ?_, fun s rest h => ⟨_, step_reset h, State.hostReset_faulted _⟩⟩
  by_contra hreset
  obtain ⟨-, -, hstatus⟩ := (step_next h).outcome_of_faulted hf hreset
  exact absurd (faulted_of_status_eq hstatus hf) (ne_true_of_eq_false hlive)

end Sys2Proof.Proofs
end

