-- ==== Sys2Proof/Proofs/Reset.lean ====
section
/-! Reset (70_reset_and_hazards.md R99): the block at power-on, and the host's reset beside the state it found. The ROM
is what SYMBOLOF and VALUEOF answer. -/

namespace Sys2Proof.Machine

variable {s t u u' : State}

/-! ### Power-on -/

section
variable (w : LenW)

@[simp] theorem State.resetAt_argN : (State.resetAt w).argN = 0 := BitVec.toInt_zero
@[simp] theorem State.resetAt_resultN : (State.resetAt w).resultN = 0 := BitVec.toInt_zero
@[simp] theorem State.resetAt_srcN : (State.resetAt w).srcN = 0 := BitVec.toInt_zero
@[simp] theorem State.resetAt_dstCap : (State.resetAt w).dstCap = 0 := BitVec.toInt_zero

@[simp] theorem State.resetAt_faulted : (State.resetAt w).faulted = false := by
  have hstatus : (State.resetAt w).status = 0 := rfl
  rw [State.faulted, hstatus]
  decide

end

/-! ### The tables are the same in every state -/

theorem resultN_of_exec_symbolof_eq {v : SymbolValue} (h : exec (.symbolof v) s = .next u)
    (h' : exec (.symbolof v) t = .next u') : u'.resultN = u.resultN :=
  (resultN_of_exec_symbolof h').trans (resultN_of_exec_symbolof h).symm

theorem resultN_of_exec_valueof_eq {c : Byte} (h : exec (.valueof c) s = .next u)
    (h' : exec (.valueof c) t = .next u') : u'.resultN = u.resultN :=
  (resultN_of_exec_valueof h').trans (resultN_of_exec_valueof h).symm

end Sys2Proof.Machine

namespace Sys2Proof.Proofs

open Sys2Proof.Machine

/-- Settles O40: the power-on values register by register, the host's reset as the whole next state `hostReset`, whose
DST is the one it found and whose tables are those of every state, and the way out of FAULTED from O39. -/
theorem resetValues : Obligations.ResetValues := by
  refine ⟨fun w => ?powerOn, fun s rest hp => ?hostReset, onlyResetLeavesFaulted.1⟩
  case powerOn =>
    exact ⟨rfl, rfl, State.resetAt_argN w, State.resetAt_resultN w, rfl, State.resetAt_srcN w,
      State.resetAt_dstCap w, State.resetAt_faulted w⟩
  case hostReset =>
    have hdst (i : Nat) : (s.withPending rest).hostReset.dstByte i = s.dstByte i := by
      rw [State.hostReset_dstByte, State.withPending_dstByte]
    exact ⟨_, step_reset hp, rfl, State.hostReset_faulted _, hdst,
      fun _ _ _ => resultN_of_exec_symbolof_eq, fun _ _ _ => resultN_of_exec_valueof_eq⟩

end Sys2Proof.Proofs
end

