-- ==== Sys2Proof/Proofs/CodecOfCommands.lean ====
section
/-! Command words there and back (30_encoding.md sections 3 to 5), and the step that runs a decoded command
(10_state.md R20). -/

namespace Sys2Proof.Proofs

open Sys2Proof.Machine

/-- Settles O1: encoding and `decode_cmd` invert each other on the commands and the legal words. -/
theorem decodeAndEncodeAgree : Obligations.DecodeAndEncodeAgree :=
  ⟨decodeCmd_encodeCmd, fun _ _ => encodeCmd_of_decodeCmd⟩

/-- Settles O4: seven closed words, evaluated. -/
theorem writtenWordsDecode : Obligations.WrittenWordsDecode := by
  unfold Obligations.WrittenWordsDecode
  decide

/-- Settles O5, from the rule for a write of CMD. -/
theorem stepRunsTheDecodedCommand : Obligations.StepRunsTheDecodedCommand :=
  fun _ _ _ _ hf hp hd => step_writeCmd_of_ok hf hp hd

end Sys2Proof.Proofs
end

