-- ==== Sys2Proof/Proofs/Invariant.lean ====
section
/-! The invariant (10_state.md section 2, 60_exceptions.md sections 1 and 2): the half about the buffers is kept by
every operation on them, and the half about the outcome is set anew by whatever writes STATUS and kept by everything
else. -/

namespace Sys2Proof.Machine

variable {i : Instr} {s t : State} {code : Code} {cause : Cause}

/-! ### The buffers -/

/-- The clauses of the invariant about SRC, DST and the draws. -/
structure State.BuffersCanonical (s : State) : Prop where
  src : s.src.wf
  dst : s.dst.wf
  rising : s.dstDraws.Pairwise (· ≤ ·)
  positive : ∀ cap ∈ s.dstDraws, 0 < cap

theorem State.Inv.buffersCanonical (h : s.Inv) : s.BuffersCanonical :=
  ⟨h.srcCanonical, h.dstCanonical, h.drawsRising, h.drawsPositive⟩

/-- Nothing but SRC, DST and the draws matters to their canonical form. -/
theorem State.BuffersCanonical.congr (h : s.BuffersCanonical) (hsrc : t.src = s.src) (hdst : t.dst = s.dst)
    (hdraws : t.dstDraws = s.dstDraws) : t.BuffersCanonical :=
  ⟨hsrc ▸ h.src, hdst ▸ h.dst, hdraws ▸ h.rising, hdraws ▸ h.positive⟩

theorem State.BuffersCanonical.writeDst (h : s.BuffersCanonical) (bytes : List Byte) :
    (s.writeDst bytes).BuffersCanonical :=
  ⟨h.src, Memory.wf_writeBytes h.dst 0 bytes, h.rising, h.positive⟩

/-- A draw stands in its place among the others, and one over an empty range is not recorded. -/
theorem State.BuffersCanonical.havocDst (h : s.BuffersCanonical) (hi : Nat) : (s.havocDst hi).BuffersCanonical := by
  refine ⟨h.src, Memory.wf_unfixBelow h.dst hi, ?rising, ?positive⟩ <;> rw [State.havocDst_dstDraws]
  case rising =>
    split_ifs
    · exact h.rising
    · exact insertDraw_rising h.rising hi
  case positive =>
    split_ifs with h0
    · exact h.positive
    · intro cap hcap
      obtain rfl | hcap := mem_insertDraw.1 hcap
      · exact Nat.pos_of_ne_zero h0
      · exact h.positive cap hcap

/-! ### The outcome -/

/-- What CMD and RESULT hold beside each legal CODE and CAUSE. -/
inductive OutcomeFits (cmd : Word32) (result : Int) : Code → Cause → Prop where
  | ok (nonneg : 0 ≤ result) : OutcomeFits cmd result .ok .none
  | invalidLength (minus : result = -1) (word : cmd = encodeCmd .enclen ∨ cmd = encodeCmd .declen) :
      OutcomeFits cmd result .invalidLength .none
  | invalidChar (minus : result = -1) (word : cmd = encodeCmd .decode) : OutcomeFits cmd result .invalidChar .none
  | illegal (minus : result = -1) (word : isLegal cmd = false) : OutcomeFits cmd result .faulted .illegalCommand
  | contract {cause : Cause} (minus : result = -1)
      (known : cause ∈ [Cause.badBufferLength, .emptySource, .badSourceLength, .dstTooSmall])
      (word : cmd = encodeCmd .decode ∨ cmd = encodeCmd .encode ∧ cause ≠ .badSourceLength) :
      OutcomeFits cmd result .faulted cause

theorem OutcomeFits.cause_eq_none_iff {cmd : Word32} {result : Int} (h : OutcomeFits cmd result code cause) :
    cause = .none ↔ code ≠ .faulted := by
  cases h with
  | ok | invalidLength | invalidChar | illegal => simp
  | contract _ known => simp only [ne_eq, not_true, iff_false]; rintro rfl; exact absurd known (by decide)

/-- Canonical buffers and an outcome that fits CMD and RESULT make the invariant. -/
theorem State.inv_of_outcomeFits (hb : s.BuffersCanonical) (hst : s.outcome code cause)
    (hfit : OutcomeFits s.cmd s.resultN code cause) : s.Inv := by
  have houtcome {c : Code} {k : Cause} : s.outcome c k ↔ code = c ∧ cause = k := by
    rw [State.outcome, hst, statusWord_inj]
  have hlegal : ∃ code cause, s.status = statusWord code cause ∧ (cause = .none ↔ code ≠ .faulted) :=
    ⟨code, cause, hst, hfit.cause_eq_none_iff⟩
  refine ⟨hb.src, hb.dst, hb.rising, hb.positive, hlegal, ?_, ?_, ?_, ?_, ?_, ?_, ?_⟩
  all_goals
    simp only [houtcome]
    cases hfit with
    | ok nonneg => simp [nonneg]
    | invalidLength minus word | invalidChar minus word | illegal minus word => simp [minus, word]
    | contract minus known word =>
      obtain ⟨hillegal, hnone⟩ : cause ≠ .illegalCommand ∧ cause ≠ .none := by
        constructor <;> (rintro rfl; exact absurd known (by decide))
      rcases word with word | ⟨word, hsource⟩ <;> simp [*]

/-- What leaves CMD, RESULT and STATUS alone keeps the invariant if it keeps the buffers canonical. -/
theorem State.Inv.congr (h : s.Inv) (hb : t.BuffersCanonical) (hcmd : t.cmd = s.cmd) (hresult : t.resultN = s.resultN)
    (hstatus : t.status = s.status) : t.Inv := by
  constructor
  case srcCanonical => exact hb.src
  case dstCanonical => exact hb.dst
  case drawsRising => exact hb.rising
  case drawsPositive => exact hb.positive
  all_goals simp only [State.outcome, hcmd, hresult, hstatus]
  case statusLegal => exact h.statusLegal
  case resultOk => exact h.resultOk
  case resultNotOk => exact h.resultNotOk
  case cmdInvalidLength => exact h.cmdInvalidLength
  case cmdInvalidChar => exact h.cmdInvalidChar
  case cmdIllegal => exact h.cmdIllegal
  case cmdBadSource => exact h.cmdBadSource
  case cmdContract => exact h.cmdContract

/-! ### What writes STATUS -/

/-- A command that answers a next state leaves the buffers canonical. -/
theorem CommandEnd.buffersCanonical (h : CommandEnd i s t) (hb : s.BuffersCanonical) : t.BuffersCanonical := by
  cases h with
  | entry | length | invalidLength => exact hb.congr rfl rfl rfl
  | wrote bytes => exact (hb.writeDst bytes).congr rfl rfl rfl
  | invalidChar | fault => exact (hb.havocDst _).congr rfl rfl rfl

/-- A command that answers a next state ends with an outcome that fits, where CMD holds its word (R20, R24, R90). -/
theorem CommandEnd.outcomeFits (h : CommandEnd i s t) (hcmd : s.cmd = encodeCmd i) :
    ∃ code cause, t.outcome code cause ∧ OutcomeFits t.cmd t.resultN code cause := by
  have hmax := maxLen_ge s.lenW
  have hcap : s.dstCap ≤ s.lenW.maxLen := toInt_le_maxLen s.lenW s.dstLen
  cases h with
  | entry value small =>
    refine ⟨_, _, rfl, .ok ?_⟩
    rw [State.finish_resultN _ _ (by omega) (by omega)]
    omega
  | length len fits =>
    refine ⟨_, _, rfl, .ok ?_⟩
    rw [State.finish_resultN _ _ (by omega) fits]
    omega
  | wrote bytes fits =>
    refine ⟨_, _, rfl, .ok ?_⟩
    rw [(bufferSuccess_finish s bytes fits).result]
    omega
  | invalidLength command =>
    refine ⟨_, _, rfl, .invalidLength (s.finish_neg_one_resultN _) ?_⟩
    rcases command with rfl | rfl <;> simp [hcmd]
  | invalidChar _ command =>
    subst command
    exact ⟨_, _, rfl, .invalidChar (State.finish_neg_one_resultN _ _) hcmd⟩
  | fault cause known _ command =>
    refine ⟨_, _, rfl, .contract (State.raiseFault_resultN ..) known ?_⟩
    rcases command with rfl | ⟨rfl, hne⟩
    · exact .inl hcmd
    · exact .inr ⟨hcmd, hne⟩

/-- A state whose STATUS and RESULT read 0 and whose buffers are canonical meets the invariant. -/
theorem State.inv_of_status_zero (hb : s.BuffersCanonical) (hst : s.status = 0) (hr : s.resultN = 0) : s.Inv :=
  s.inv_of_outcomeFits hb (hst.trans (statusWord_eq_zero.2 ⟨rfl, rfl⟩).symm) (.ok hr.ge)

/-- Every way a step can end keeps the invariant. -/
theorem StepEnd.inv (h : StepEnd s t) (hs : s.Inv) : t.Inv := by
  have hb := hs.buffersCanonical
  cases h with
  | idle => exact hs
  | noEffect | register => exact hs.congr (hb.congr rfl rfl rfl) rfl rfl rfl
  | buffer _ _ _ _ _ src dst srcKeeps dstKeeps =>
    exact hs.congr ⟨srcKeeps hb.src, dstKeeps hb.dst, hb.rising, hb.positive⟩ rfl rfl rfl
  | reset => exact State.inv_of_status_zero (hb.congr rfl rfl rfl) rfl BitVec.toInt_zero
  | illegal w rest _ _ word =>
    refine State.inv_of_outcomeFits ?_ (State.raiseFault_status ..) (.illegal (State.raiseFault_resultN ..) word)
    exact (hb.congr (t := (s.withPending rest).storeCmd w) rfl rfl rfl).havocDst _ |>.congr rfl rfl rfl
  | command w rest i _ _ word ends =>
    obtain ⟨code, cause, hst, hfit⟩ := ends.outcomeFits (encodeCmd_of_decodeCmd word).symm
    exact State.inv_of_outcomeFits (ends.buffersCanonical (hb.congr rfl rfl rfl)) hst hfit

/-! ### The parameters -/

theorem CommandEnd.parameters (h : CommandEnd i s t) : t.lenW = s.lenW ∧ t.placement = s.placement := by
  cases h with
  | entry | length | invalidLength | wrote | invalidChar | fault => exact ⟨rfl, rfl⟩

theorem StepEnd.parameters (h : StepEnd s t) : t.lenW = s.lenW ∧ t.placement = s.placement := by
  cases h with
  | idle | noEffect | register | buffer | reset | illegal => exact ⟨rfl, rfl⟩
  | command _ _ _ _ _ _ ends => exact ends.parameters

end Sys2Proof.Machine

namespace Sys2Proof.Proofs

open Sys2Proof.Machine

/-- Settles O46: each way a step can end keeps the invariant. -/
theorem everyStepKeepsTheInvariant : Obligations.EveryStepKeepsTheInvariant :=
  fun _ _ hs h => (step_next h).inv hs

/-- Settles O45: after reset the buffers are empty and STATUS and RESULT are 0. -/
theorem invariantAtReset : Obligations.InvariantAtReset :=
  fun w => State.inv_of_status_zero ⟨.nil, .nil, .nil, by simp [State.resetAt]⟩ rfl (State.resetAt_resultN w)

/-- Settles O47: no way a step can end changes LEN_W or the placement. -/
theorem stepsKeepTheParameters : Obligations.StepsKeepTheParameters :=
  fun _ _ h => (step_next h).parameters

end Sys2Proof.Proofs
end

