-- ==== Sys2Proof/Proofs/TableProperties.lean ====
section
/-! Properties of the tables (40_tables.md section 2), and how many values a tail may end with (43_decoder.md
section 3). -/

namespace Sys2Proof.Machine

/-- The number of valid entries of REV: 32 canonical characters, 22 lowercase letters and 6 other
spellings of `0` and `1`. -/
theorem rev_valid_count : ((List.range 256).filter fun c => rev (BitVec.ofNat 8 c) != 0xFF#8).length = 60 := by
  decide +kernel

/-- FWD of a valid entry is the canonical form of the byte: `0` or `1` where the byte is another spelling
of it, and uppercase for a letter. -/
theorem fwd_rev : ∀ c : Byte, rev c ≠ 0xFF → fwd ((rev c).setWidth 5) =
    if c = 0x4F#8 ∨ c = 0x6F#8 then 0x30#8
    else if c = 0x49#8 ∨ c = 0x69#8 ∨ c = 0x4C#8 ∨ c = 0x6C#8 then 0x31#8
    else if 0x61#8 ≤ c then c - 0x20#8 else c := by decide +kernel

/-- The OR of looked-up entries is INVALID exactly when one of them is (R69, R83). -/
theorem or_entries_eq_invalid_iff (cs : List Byte) :
    (cs.map rev).foldl (· ||| ·) 0 = 0xFF ↔ ∃ c ∈ cs, rev c = 0xFF := by
  have hor := (foldl_or_invalid cs 0 (.inr (by decide))).1
  rw [hor, or_iff_right (by decide)]

/-- The OR of valid entries is a symbol value (R69). -/
theorem or_valid_entries_le {cs : List Byte} (h : ∀ c ∈ cs, rev c ≠ 0xFF) :
    ((cs.map rev).foldl (· ||| ·) 0).toNat ≤ 31 := by
  have hcases := (foldl_or_invalid cs 0 (.inr (by decide))).2
  refine Nat.le_of_lt_succ (hcases.resolve_left fun hinvalid => ?_)
  obtain ⟨c, hc, hrev⟩ := (or_entries_eq_invalid_iff cs).1 hinvalid
  exact h c hc hrev

end Sys2Proof.Machine

namespace Sys2Proof.Proofs

open Sys2Proof.Machine

/-- Settles O9: the entries by evaluating the tables, the OR test by the induction over the group. -/
theorem tableProperties : Obligations.TableProperties :=
  ⟨rev_valid_count, rev_fwd, fwd_rev, or_entries_eq_invalid_iff, fun _ => or_valid_entries_le⟩

/-- Settles O24: each of the four masks is tried on the 32 values. -/
theorem legalLastSymbols : Obligations.LegalLastSymbols := by
  unfold Obligations.LegalLastSymbols
  decide +kernel

end Sys2Proof.Proofs
end

