-- ==== Sys2Proof/Proofs/LengthFunctions.lean ====
section
/-! The length functions E and D (41_length.md section 1), from their closed forms. -/

namespace Sys2Proof.Machine

variable {w : LenW}

/-- The lengths that E answers: `ceil(8n / 5)` does not exceed MAXLEN exactly up to NMAX_ENC (R73). -/
theorem encodedLength_isSome_iff {n : Int} :
    (encodedLength w n).isSome ↔ 0 ≤ n ∧ n ≤ 5 * 2 ^ (w.bits - 4) - 1 := by
  have hmax := maxLen_eq w
  rw [← Option.ne_none_iff_isSome, ne_eq, encodedLength_eq_none]
  omega

/-- E of NMAX_ENC is MAXLEN (R73). -/
theorem encodedLength_nmax : encodedLength w (5 * 2 ^ (w.bits - 4) - 1) = some w.maxLen.toNat := by
  have hmax := maxLen_eq w
  have hge := maxLen_ge w
  exact encodedLength_eq_some.2 (by omega)

/-- The symbols of a tail, `ceil(8r / 5)`, as the table of R73. -/
theorem tail_symbols_table : ∀ r < 5, (8 * r + 4) / 5 = [0, 2, 4, 5, 7].getD r 0 := by decide

end Sys2Proof.Machine

namespace Sys2Proof.Proofs

open Sys2Proof.Machine

/-- Settles O12: E is `ceil(8n / 5)` up to MAXLEN, and MAXLEN is `8 * 2^(LEN_W-4) - 1`. -/
theorem encodedLengthProperties : Obligations.EncodedLengthProperties := by
  intro w
  have hmax := maxLen_eq w
  refine ⟨fun q r hr e he => ?groups, fun n e he => ?ceiling, fun n => encodedLength_isSome_iff,
    ⟨_, encodedLength_nmax, ?nmax⟩, by omega⟩
  case groups =>
    obtain ⟨-, rfl, -⟩ := encodedLength_eq_some.1 he
    rw [← tail_symbols_table r hr]
    omega
  case ceiling =>
    obtain ⟨-, rfl, hfits⟩ := encodedLength_eq_some.1 he
    omega
  case nmax =>
    have hge := maxLen_ge w
    omega

/-- Settles O13: `ceil(8n / 5)` and `floor(5n / 8)` undo each other where the remainder is valid. -/
theorem lengthsAreInverse : Obligations.LengthsAreInverse := by
  refine ⟨fun w n e he => ?decodeEncode, fun w m d hm hd => ?encodeDecode, fun n d hd => ?floor, fun n => ?remainder,
    fun n hn => decodedLength_eq_none.2 (.inl hn)⟩
  case decodeEncode =>
    obtain ⟨h0, rfl, -⟩ := encodedLength_eq_some.1 he
    have hD : decodedLength ((8 * n.toNat + 4) / 5 : Nat) = some n.toNat :=
      decodedLength_eq_some.2 (by simp only [ValidRemainder]; omega)
    rw [hD]
    simpa using h0
  case encodeDecode =>
    obtain ⟨h0, hr, rfl⟩ := decodedLength_eq_some.1 hd
    rw [ValidRemainder] at hr
    have hE : encodedLength w (5 * m.toNat / 8 : Nat) = some m.toNat := encodedLength_eq_some.2 (by omega)
    rw [hE]
    simpa using h0
  case floor =>
    obtain ⟨-, -, rfl⟩ := decodedLength_eq_some.1 hd
    omega
  case remainder =>
    rw [← Option.ne_none_iff_isSome, ne_eq, decodedLength_eq_none, Int.toNat_natCast]
    simp

end Sys2Proof.Proofs
end

