-- ==== Sys2Proof/Proofs/GroupFormulas.lean ====
section
/-! EncGroup and DecGroup (42_encoder.md R78, 43_decoder.md R82) as the document's formulas over unbounded integers and
as concatenations of bit slices. They invert each other because both carry one stream of bits. -/

namespace Sys2Proof.Machine

/-! ### Numbers side by side -/

/-- A number below `2^k` ORed under another is the two side by side. -/
theorem shiftLeft_or {a b k : Nat} (hb : b < 2 ^ k) : a <<< k ||| b = a * 2 ^ k + b := by
  rw [← Nat.shiftLeft_add_eq_or_of_lt hb, Nat.shiftLeft_eq]

/-- Three numbers side by side. -/
theorem shiftLeft_or_or {a b c k j : Nat} (hc : c < 2 ^ j) (hb : b * 2 ^ j + c < 2 ^ k) :
    a <<< k ||| b <<< j ||| c = a * 2 ^ k + b * 2 ^ j + c := by
  rw [Nat.or_assoc, shiftLeft_or hc, shiftLeft_or hb, Nat.add_assoc]

theorem and_31 (v : Nat) : v &&& 31 = v % 32 := Nat.and_two_pow_sub_one_eq_mod v 5

/-- The low five bits from bit `k` on are the slice from there. -/
theorem shiftRight_and_31 (v k : Nat) : v >>> k &&& 31 = slice v (k + 4) k := by
  have hwidth : k + 4 - k + 1 = 5 := by omega
  rw [and_31, Nat.shiftRight_eq_div_pow, slice, hwidth]
  rfl

/-- The low five bits of two numbers side by side: `5 - k` bits of the first above the top `k` bits of a byte. -/
theorem shiftLeft_or_and_31 (a b k : Nat) (hb : b < 256) (hk : k < 5) :
    (a <<< k ||| b >>> (8 - k)) &&& 31 = slice a (4 - k) 0 * 2 ^ k + slice b 7 (8 - k) := by
  have hlow : b >>> (8 - k) < 2 ^ k := by
    rw [Nat.shiftRight_eq_div_pow]
    interval_cases k <;> omega
  rw [and_31, shiftLeft_or hlow, Nat.shiftRight_eq_div_pow, slice, slice]
  interval_cases k <;> omega

/-! ### EncGroup -/

theorem low5_toNat (b : Byte) : (low5 b).toNat = b.toNat &&& 31 := by
  rw [low5, BitVec.toNat_setWidth, and_31]

theorem low5_shiftRight_toNat (b : Byte) (k : Nat) : (low5 (b >>> k)).toNat = b.toNat >>> k &&& 31 := by
  rw [low5_toNat, BitVec.toNat_ushiftRight]

/-- The bits that a byte's shift to the left drops are above the low five. -/
theorem low5_shiftLeft_or_toNat (a b : Byte) (k m : Nat) :
    (low5 (a <<< k ||| b >>> m)).toNat = (a.toNat <<< k ||| b.toNat >>> m) &&& 31 := by
  rw [low5_toNat, BitVec.toNat_or, BitVec.toNat_shiftLeft, BitVec.toNat_ushiftRight, Nat.and_or_distrib_right,
    Nat.and_or_distrib_right, and_31, and_31 (a.toNat <<< k), Nat.mod_mod_of_dvd _ (by decide)]

/-- The document's formulas for EncGroup (R78). -/
def encFormulas (b0 b1 b2 b3 b4 : Nat) : List Nat :=
  [b0 >>> 3,
   (b0 <<< 2 ||| b1 >>> 6) &&& 31,
   (b1 >>> 1) &&& 31,
   (b1 <<< 4 ||| b2 >>> 4) &&& 31,
   (b2 <<< 1 ||| b3 >>> 7) &&& 31,
   (b3 >>> 2) &&& 31,
   (b3 <<< 3 ||| b4 >>> 5) &&& 31,
   b4 &&& 31]

/-- The slices that EncGroup's formulas come to (R78). -/
def encSlices (b0 b1 b2 b3 b4 : Nat) : List Nat :=
  [slice b0 7 3, slice b0 2 0 * 2 ^ 2 + slice b1 7 6, slice b1 5 1, slice b1 0 0 * 2 ^ 4 + slice b2 7 4,
   slice b2 3 0 * 2 + slice b3 7 7, slice b3 6 2, slice b3 1 0 * 2 ^ 3 + slice b4 7 5, slice b4 4 0]

theorem encGroup_toNat (b0 b1 b2 b3 b4 : Byte) :
    (encGroup b0 b1 b2 b3 b4).map BitVec.toNat = encFormulas b0.toNat b1.toNat b2.toNat b3.toNat b4.toNat := by
  have htop : b0.toNat >>> 3 &&& 31 = b0.toNat >>> 3 := by
    rw [and_31, Nat.shiftRight_eq_div_pow]
    omega
  simp only [encGroup, encFormulas, List.map_cons, List.map_nil, low5_shiftLeft_or_toNat, low5_shiftRight_toNat,
    low5_toNat b4, htop]

theorem encFormulas_eq_slices {b0 b1 b2 b3 b4 : Nat} (h0 : b0 < 256) (h1 : b1 < 256) (h2 : b2 < 256) (h3 : b3 < 256)
    (h4 : b4 < 256) : encFormulas b0 b1 b2 b3 b4 = encSlices b0 b1 b2 b3 b4 := by
  have htop : b0 >>> 3 = slice b0 7 3 := by
    rw [slice, Nat.shiftRight_eq_div_pow]
    omega
  simp only [encFormulas, encSlices, List.cons.injEq, and_true]
  exact ⟨htop, shiftLeft_or_and_31 b0 b1 2 h1 (by decide), shiftRight_and_31 b1 1,
    shiftLeft_or_and_31 b1 b2 4 h2 (by decide), shiftLeft_or_and_31 b2 b3 1 h3 (by decide), shiftRight_and_31 b3 2,
    shiftLeft_or_and_31 b3 b4 3 h4 (by decide), shiftRight_and_31 b4 0⟩

theorem encGroup_slices (b0 b1 b2 b3 b4 : Byte) :
    (encGroup b0 b1 b2 b3 b4).map BitVec.toNat = encSlices b0.toNat b1.toNat b2.toNat b3.toNat b4.toNat := by
  rw [encGroup_toNat, encFormulas_eq_slices b0.isLt b1.isLt b2.isLt b3.isLt b4.isLt]

/-! ### DecGroup -/

/-- The document's formulas for DecGroup (R82). -/
def decFormulas (c0 c1 c2 c3 c4 c5 c6 c7 : Nat) : List Nat :=
  [c0 <<< 3 ||| c1 >>> 2,
   (c1 &&& 0x03) <<< 6 ||| c2 <<< 1 ||| c3 >>> 4,
   (c3 &&& 0x0F) <<< 4 ||| c4 >>> 1,
   (c4 &&& 0x01) <<< 7 ||| c5 <<< 2 ||| c6 >>> 3,
   (c6 &&& 0x07) <<< 5 ||| c7]

/-- The slices that DecGroup's formulas come to (R82). -/
def decSlices (c0 c1 c2 c3 c4 c5 c6 c7 : Nat) : List Nat :=
  [slice c0 4 0 * 2 ^ 3 + slice c1 4 2,
   slice c1 1 0 * 2 ^ 6 + slice c2 4 0 * 2 + slice c3 4 4,
   slice c3 3 0 * 2 ^ 4 + slice c4 4 1,
   slice c4 0 0 * 2 ^ 7 + slice c5 4 0 * 2 ^ 2 + slice c6 4 3,
   slice c6 2 0 * 2 ^ 5 + slice c7 4 0]

/-- A symbol value as the byte that REV answers for it. -/
abbrev entryOf (v : SymbolValue) : Byte := v.setWidth 8

theorem entryOf_toNat (v : SymbolValue) : (entryOf v).toNat = v.toNat := BitVec.toNat_setWidth_of_le (by decide)

/-- Shifted by at most three, a symbol value stays within a byte. -/
theorem entryOf_shiftLeft_toNat (v : SymbolValue) {k : Nat} (hk : k < 4) : (entryOf v <<< k).toNat = v.toNat <<< k := by
  have hv := v.isLt
  rw [BitVec.toNat_shiftLeft, entryOf_toNat, Nat.shiftLeft_eq]
  interval_cases k <;> omega

/-- Masked to `8 - k` bits and shifted by `k`, a value stays within a byte. -/
theorem entryOf_and_shiftLeft_toNat (v : SymbolValue) {m : Byte} {k : Nat} (hm : m.toNat * 2 ^ k < 256) :
    ((entryOf v &&& m) <<< k).toNat = (v.toNat &&& m.toNat) <<< k := by
  rw [BitVec.toNat_shiftLeft, BitVec.toNat_and, entryOf_toNat, Nat.shiftLeft_eq]
  exact Nat.mod_eq_of_lt (lt_of_le_of_lt (Nat.mul_le_mul_right _ Nat.and_le_right) hm)

theorem decGroup_toNat (v0 v1 v2 v3 v4 v5 v6 v7 : SymbolValue) :
    (decGroup (entryOf v0) (entryOf v1) (entryOf v2) (entryOf v3) (entryOf v4) (entryOf v5) (entryOf v6)
      (entryOf v7)).map BitVec.toNat =
      decFormulas v0.toNat v1.toNat v2.toNat v3.toNat v4.toNat v5.toNat v6.toNat v7.toNat := by
  simp only [decGroup, decFormulas, List.map_cons, List.map_nil, BitVec.toNat_or, BitVec.toNat_ushiftRight,
    entryOf_toNat, entryOf_shiftLeft_toNat _ (show 3 < 4 by decide), entryOf_shiftLeft_toNat _ (show 1 < 4 by decide),
    entryOf_shiftLeft_toNat _ (show 2 < 4 by decide),
    entryOf_and_shiftLeft_toNat _ (show (0x03 : Byte).toNat * 2 ^ 6 < 256 by decide),
    entryOf_and_shiftLeft_toNat _ (show (0x0F : Byte).toNat * 2 ^ 4 < 256 by decide),
    entryOf_and_shiftLeft_toNat _ (show (0x01 : Byte).toNat * 2 ^ 7 < 256 by decide),
    entryOf_and_shiftLeft_toNat _ (show (0x07 : Byte).toNat * 2 ^ 5 < 256 by decide)]
  rfl

theorem decFormulas_eq_slices {c0 c1 c2 c3 c4 c5 c6 c7 : Nat} (h0 : c0 < 32) (h1 : c1 < 32) (h2 : c2 < 32)
    (h3 : c3 < 32) (h4 : c4 < 32) (h5 : c5 < 32) (h6 : c6 < 32) (h7 : c7 < 32) :
    decFormulas c0 c1 c2 c3 c4 c5 c6 c7 = decSlices c0 c1 c2 c3 c4 c5 c6 c7 := by
  have m1 (v : Nat) : v &&& 0x01 = v % 2 := Nat.and_two_pow_sub_one_eq_mod v 1
  have m3 (v : Nat) : v &&& 0x03 = v % 4 := Nat.and_two_pow_sub_one_eq_mod v 2
  have m7 (v : Nat) : v &&& 0x07 = v % 8 := Nat.and_two_pow_sub_one_eq_mod v 3
  have mF (v : Nat) : v &&& 0x0F = v % 16 := Nat.and_two_pow_sub_one_eq_mod v 4
  simp only [decFormulas, decSlices, slice, m1, m3, m7, mF, Nat.shiftRight_eq_div_pow]
  rw [shiftLeft_or (k := 3) (by omega), shiftLeft_or_or (k := 6) (j := 1) (by omega) (by omega),
    shiftLeft_or (k := 4) (by omega), shiftLeft_or_or (k := 7) (j := 2) (by omega) (by omega),
    shiftLeft_or (k := 5) (by omega)]
  simp only [List.cons.injEq, and_true]
  omega

theorem decGroup_slices (v0 v1 v2 v3 v4 v5 v6 v7 : SymbolValue) :
    (decGroup (entryOf v0) (entryOf v1) (entryOf v2) (entryOf v3) (entryOf v4) (entryOf v5) (entryOf v6)
      (entryOf v7)).map BitVec.toNat =
      decSlices v0.toNat v1.toNat v2.toNat v3.toNat v4.toNat v5.toNat v6.toNat v7.toNat := by
  rw [decGroup_toNat,
    decFormulas_eq_slices v0.isLt v1.isLt v2.isLt v3.isLt v4.isLt v5.isLt v6.isLt v7.isLt]

/-! ### Each undoes the other: both carry one stream of 40 bits -/

/-- Lists of words of one length are equal when they have the same bits. -/
theorem list_ext_getMsbD {n : Nat} {xs ys : List (BitVec n)} (hlength : xs.length = ys.length)
    (hbits : ∀ j k, j < ys.length → k < n → (xs.getD j 0).getMsbD k = (ys.getD j 0).getMsbD k) : xs = ys := by
  refine List.ext_getElem hlength fun j hx hy => BitVec.eq_of_getMsbD_eq fun k hk => ?_
  simpa only [List.getD_eq_getElem _ _ hx, List.getD_eq_getElem _ _ hy] using hbits j k hy hk

/-- Bit `k` of a symbol value from the top, in the byte that holds it. -/
theorem entryOf_getLsbD : ∀ (v : SymbolValue) (k : Nat), k < 5 → (entryOf v).getLsbD (4 - k) = v.getMsbD k := by
  decide +kernel

theorem getD_map_entryOf (vs : List SymbolValue) (j : Nat) : (vs.map entryOf).getD j 0 = entryOf (vs.getD j 0) :=
  List.getD_map vs 0 entryOf

/-- Byte `j` of DecGroup holds the eight bits of the symbol values' stream from `8j` on (R37). -/
theorem decGroupOf_map_entryOf_bit (vs : List SymbolValue) (j k : Nat) (hj : j < 5) (hk : k < 8) :
    ((decGroupOf (vs.map entryOf)).getD j 0).getMsbD k =
      (vs.getD ((8 * j + k) / 5) 0).getMsbD ((8 * j + k) % 5) := by
  have hsmall (i : Nat) : ((vs.map entryOf).getD i 0).toNat < 32 := by
    rw [getD_map_entryOf, entryOf_toNat]
    exact (vs.getD i 0).isLt
  rw [decGroupOf_bit _ hsmall j k hj hk, getD_map_entryOf, entryOf_getLsbD _ _ (by omega)]

theorem encGroupOf_decGroupOf {vs : List SymbolValue} (h : vs.length = 8) :
    encGroupOf (decGroupOf (vs.map entryOf)) = vs := by
  refine list_ext_getMsbD (by rw [encGroupOf_length, h]) fun j k hj hk => ?_
  rw [encGroupOf_bit _ _ _ (by omega) hk, byteStreamBit,
    decGroupOf_map_entryOf_bit _ _ _ (by omega) (by omega)]
  have hposition : 8 * ((5 * j + k) / 8) + (5 * j + k) % 8 = 5 * j + k := by omega
  have hdiv : (5 * j + k) / 5 = j := by omega
  have hmod : (5 * j + k) % 5 = k := by omega
  rw [hposition, hdiv, hmod]

theorem decGroupOf_encGroupOf {bs : List Byte} (h : bs.length = 5) :
    decGroupOf ((encGroupOf bs).map entryOf) = bs := by
  refine list_ext_getMsbD (by rw [decGroupOf_length, h]) fun j k hj hk => ?_
  rw [decGroupOf_map_entryOf_bit _ _ _ (by omega) hk, encGroupOf_bit _ _ _ (by omega) (by omega), byteStreamBit]
  have hposition : 5 * ((8 * j + k) / 5) + (8 * j + k) % 5 = 8 * j + k := by omega
  have hdiv : (8 * j + k) / 8 = j := by omega
  have hmod : (8 * j + k) % 8 = k := by omega
  rw [hposition, hdiv, hmod]

end Sys2Proof.Machine

namespace Sys2Proof.Proofs

open Sys2Proof.Machine

/-- Settles O16: the formulas entry by entry, and their slices as numbers side by side. -/
theorem encodeGroupFormulas : Obligations.EncodeGroupFormulas :=
  fun v0 v1 v2 v3 v4 => ⟨encGroup_toNat v0 v1 v2 v3 v4, encGroup_slices v0 v1 v2 v3 v4⟩

/-- Settles O19: the formulas byte by byte, their slices as numbers side by side, and the two inverses from the
stream of bits that both groups carry. -/
theorem decodeGroupFormulas : Obligations.DecodeGroupFormulas :=
  ⟨fun v0 v1 v2 v3 v4 v5 v6 v7 => ⟨decGroup_toNat v0 v1 v2 v3 v4 v5 v6 v7, decGroup_slices v0 v1 v2 v3 v4 v5 v6 v7,
    encGroupOf_decGroupOf (vs := [v0, v1, v2, v3, v4, v5, v6, v7]) rfl⟩,
    fun b0 b1 b2 b3 b4 => decGroupOf_encGroupOf (bs := [b0, b1, b2, b3, b4]) rfl⟩

end Sys2Proof.Proofs
end

