-- ==== Sys2Proof/Proofs/BufferCommands.lean ====
section
/-! ENCODE and DECODE with their preconditions met (42_encoder.md section 2, 43_decoder.md section 2): what each writes,
as a whole ending, and then bit by bit. -/

namespace Sys2Proof.Machine

variable {i : Instr} {s t : State} {bytes symbols out : List Byte}

/-! ### A command that writes a list of bytes -/

/-- The command answers a next state in which it has ended OK and these bytes, and no others, are written to DST. -/
def WritesDst (i : Instr) (s : State) (out : List Byte) : Prop :=
  ∃ t, exec i s = .next t ∧ BufferSuccess s t out.length ∧ ∀ j, (h : j < out.length) → t.dst.read? j = some out[j]

theorem WritesDst.of_finish (hfit : (out.length : Int) ≤ s.dstCap)
    (h : exec i s = .next ((s.writeDst out).finish .ok out.length)) : WritesDst i s out :=
  ⟨_, h, bufferSuccess_finish s out hfit, s.dst.read?_writeBytes_zero out⟩

/-- ENCODE of a provided source writes the encoded bytes. -/
theorem encode_writesDst (hp : s.placement = .disjoint) (hne : bytes ≠ []) (hn : s.srcN = bytes.length)
    (hs : SrcProvided s bytes) (hfit : ((encodeBytes bytes).length : Int) ≤ s.dstCap) :
    WritesDst .encode s (encodeBytes bytes) := by
  refine .of_finish hfit ?_
  rw [encodeBytes_length] at hfit ⊢
  have hc := encodeContract_of_fits (List.length_pos_of_ne_nil hne) hn hfit
  exact execEncode_of_ok hp hc (readSrc_of_provided hs hn)

/-- DECODE of a provided source that decodes writes the decoded bytes. -/
theorem decode_writesDst (hp : s.placement = .disjoint) (hne : symbols ≠ []) (hn : s.srcN = symbols.length)
    (hs : SrcProvided s symbols) (hr : ValidRemainder symbols.length) (hd : decodeBytes symbols = some out)
    (hfit : (out.length : Int) ≤ s.dstCap) : WritesDst .decode s out := by
  refine .of_finish hfit ?_
  rw [decodeBytes_length hr hd] at hfit ⊢
  have hc := decodeContract_of_fits (List.length_pos_of_ne_nil hne) hn hr hfit
  exact execDecode_of_ok hp hc (readSrc_of_provided hs hn) hd

/-! ### The bits of what is written -/

/-- Byte `j` that ENCODE writes is the character of the next five bits of the stream (R37). -/
theorem encodeBytes_getElem {j : Nat} (h : j < (encodeBytes bytes).length) :
    ∃ v : SymbolValue, (encodeBytes bytes)[j] = letterOf v ∧
      ∀ k, k < 5 → v.getMsbD k = byteStreamBit bytes (5 * j + k) := by
  have hlength := encodeBytes_length bytes
  refine ⟨(encodeGroups (bytes.length / 5) bytes).getD j 0, ?_, fun k hk => ?_⟩
  · have hj : j < (encodeGroups (bytes.length / 5) bytes).length := by simpa [encodeBytes] using h
    rw [← fwd_eq_letterOf, List.getD_eq_getElem _ _ hj]
    exact List.getElem_map fwd
  · exact encodeGroups_bit _ bytes rfl j k (by omega) hk

/-- Byte `j` that DECODE writes is the next eight bits of the stream (R37). -/
theorem decodeBytes_getElem (hr : ValidRemainder symbols.length) (hd : decodeBytes symbols = some out) {j : Nat}
    (h : j < out.length) : ∀ k, k < 8 → out[j].getMsbD k = symbolStreamBit symbols (8 * j + k) := by
  intro k hk
  rw [← (decodeGroups_bit _ symbols out rfl hr hd).2 j k h hk, List.getD_eq_getElem _ _ h]

/-! ### Content -/

/-- Good content decodes (R83, R85). -/
theorem exists_decodeBytes_eq (hr : ValidRemainder symbols.length) (hv : AllSymbolsValid symbols)
    (hz : TailBitsZero symbols) : ∃ out, decodeBytes symbols = some out := by
  rw [← Option.ne_none_iff_exists']
  exact fun hnone => (decodeGroups_eq_none _ symbols rfl hr).1 hnone ⟨hv, hz⟩

/-- Bad content ends DECODE with INVALID_CHAR (R86). -/
theorem exec_decode_of_badContent (hp : s.placement = .disjoint) (hne : symbols ≠ []) (hn : s.srcN = symbols.length)
    (hs : SrcProvided s symbols) (hr : ValidRemainder symbols.length)
    (hfit : ((5 * symbols.length / 8 : Nat) : Int) ≤ s.dstCap)
    (hbad : ¬ (AllSymbolsValid symbols ∧ TailBitsZero symbols)) :
    exec .decode s = .next ((s.havocDst s.dstCap.toNat).finish .invalidChar (-1)) :=
  execDecode_of_bad hp (decodeContract_of_fits (List.length_pos_of_ne_nil hne) hn hr hfit)
    (readSrc_of_provided hs hn) ((decodeGroups_eq_none _ symbols rfl hr).2 hbad)

end Sys2Proof.Machine

namespace Sys2Proof.Proofs

open Sys2Proof.Machine

/-- Settles O17: ENCODE writes the encoded bytes, each the character of the next five bits. -/
theorem encodeWritesTheBitStream : Obligations.EncodeWritesTheBitStream := by
  intro s bytes hp hne hn hs hfit
  rw [← encodeBytes_length] at hfit ⊢
  obtain ⟨t, h, hsuccess, hread⟩ := encode_writesDst hp hne hn hs hfit
  refine ⟨t, h, hsuccess, fun j hj => ?_⟩
  obtain ⟨v, hv, hbits⟩ := encodeBytes_getElem hj
  exact ⟨v, hv ▸ hread j hj, hbits⟩

/-- Settles O20: good content decodes, and DECODE writes the decoded bytes, each the next eight bits. -/
theorem decodeWritesTheBitStream : Obligations.DecodeWritesTheBitStream := by
  intro s symbols hp hne hn hs hr hfit hv hz
  obtain ⟨out, hd⟩ := exists_decodeBytes_eq hr hv hz
  rw [← decodeBytes_length hr hd] at hfit ⊢
  obtain ⟨t, h, hsuccess, hread⟩ := decode_writesDst hp hne hn hs hr hd hfit
  exact ⟨t, h, hsuccess, fun j hj => ⟨out[j], hread j hj, decodeBytes_getElem hr hd hj⟩⟩

/-- Settles O21: good content ends OK as in O20, and bad content with INVALID_CHAR and a draw. -/
theorem decodeRejectsExactlyBadContent : Obligations.DecodeRejectsExactlyBadContent := by
  intro s symbols hp hne hn hs hr hfit
  by_cases hcontent : AllSymbolsValid symbols ∧ TailBitsZero symbols
  · obtain ⟨t, h, hsuccess, -⟩ :=
      decodeWritesTheBitStream s symbols hp hne hn hs hr hfit hcontent.1 hcontent.2
    have hne2 : t.status ≠ 2 := by rw [hsuccess.status]; decide
    exact ⟨t, h, hsuccess.frame, iff_of_false hne2 (not_not_intro hcontent), fun h2 => absurd h2 hne2,
      fun _ => hsuccess.status⟩
  · refine ⟨_, exec_decode_of_badContent hp hne hn hs hr hfit hcontent, ⟨_, _, _, _, rfl⟩, ?_, fun _ => ?_, ?_⟩
    · exact iff_of_true (statusWord_eq_two.2 ⟨rfl, rfl⟩) hcontent
    · exact ⟨State.finish_neg_one_resultN _ _, freshDstBelow_havocDst s _, sameDstFrom_havocDst s _⟩
    · exact fun hne2 => absurd (statusWord_eq_two.2 ⟨rfl, rfl⟩) hne2

end Sys2Proof.Proofs
end

