-- ==== Sys2Proof/Proofs/ContractFaults.lean ====
section
/-! The contract checks of ENCODE and DECODE and the faults they raise, in their order (42_encoder.md R80, 43_decoder.md
R86, 60_exceptions.md R91). -/

namespace Sys2Proof.Machine

variable {i : Instr} {s t : State} {cause : Cause} {w : Word32}

/-! ### The last checks -/

theorem encodeContract_dstTooSmall (h : 0 < s.srcN) (hc : 0 ≤ s.dstCap) (hsmall : s.dstCap < (8 * s.srcN + 4) / 5) :
    encodeContract s = .error .dstTooSmall := by
  rw [encodeContract_of_pos h hc]
  split
  · rfl
  · next e he =>
    obtain ⟨-, rfl, -⟩ := encodedLength_eq_some.1 he
    exact if_pos (by omega)

theorem decodeContract_badSourceLength (h : 0 < s.srcN) (hc : 0 ≤ s.dstCap) (hr : ¬ ValidRemainder s.srcN.toNat) :
    decodeContract s = .error .badSourceLength := by
  rw [decodeContract_of_pos h hc, decodedLength_eq_none.2 (.inr hr)]

theorem decodeContract_dstTooSmall (h : 0 < s.srcN) (hc : 0 ≤ s.dstCap) (hr : ValidRemainder s.srcN.toNat)
    (hsmall : s.dstCap < 5 * s.srcN / 8) : decodeContract s = .error .dstTooSmall := by
  rw [decodeContract_of_pos h hc, decodedLength_eq_some.2 ⟨h.le, hr, rfl⟩]
  exact if_pos (by omega)

/-! ### A failed check is fault entry -/

theorem encode_faultEntry (hp : s.placement = .disjoint) (h : encodeContract s = .error cause) :
    ∃ t, exec .encode s = .next t ∧ FaultEntry s t (statusWord .faulted cause) s.dstCap.toNat :=
  ⟨_, execEncode_of_error hp h, faultEntry_raiseFault s .used cause⟩

theorem decode_faultEntry (hp : s.placement = .disjoint) (h : decodeContract s = .error cause) :
    ∃ t, exec .decode s = .next t ∧ FaultEntry s t (statusWord .faulted cause) s.dstCap.toNat :=
  ⟨_, execDecode_of_error hp h, faultEntry_raiseFault s .used cause⟩

/-! ### The cause by priority -/

/-- The first violation of ENCODE's checks. -/
theorem cause_of_encodeContract (h : encodeContract s = .error cause) :
    cause = if s.srcN < 0 ∨ s.dstCap < 0 then .badBufferLength else if s.srcN = 0 then .emptySource
      else .dstTooSmall := by
  split_ifs with hneg hempty
  · rw [encodeContract_badBufferLength hneg] at h
    cases h; rfl
  · rw [encodeContract_emptySource hempty (by omega)] at h
    cases h; rfl
  · rw [encodeContract_of_pos (by omega) (by omega)] at h
    split at h
    · cases h; rfl
    · split_ifs at h
      cases h; rfl

/-- The first violation of DECODE's checks. -/
theorem cause_of_decodeContract (h : decodeContract s = .error cause) :
    cause = if s.srcN < 0 ∨ s.dstCap < 0 then .badBufferLength else if s.srcN = 0 then .emptySource
      else if s.srcN % 8 = 1 ∨ s.srcN % 8 = 3 ∨ s.srcN % 8 = 6 then .badSourceLength else .dstTooSmall := by
  split_ifs with hneg hempty hr
  · rw [decodeContract_badBufferLength hneg] at h
    cases h; rfl
  · rw [decodeContract_emptySource hempty (by omega)] at h
    cases h; rfl
  · have hinvalid : ¬ ValidRemainder s.srcN.toNat := by rw [ValidRemainder]; omega
    rw [decodeContract_badSourceLength (by omega) (by omega) hinvalid] at h
    cases h; rfl
  · have hvalid : ValidRemainder s.srcN.toNat := by rw [ValidRemainder]; omega
    rw [decodeContract_of_pos (by omega) (by omega), decodedLength_eq_some.2 ⟨by omega, hvalid, rfl⟩] at h
    simp only at h
    split_ifs at h
    cases h; rfl

/-- The cause that a command word faults with, if it faults (R91). -/
def causeByPriority (w : Word32) (s : State) : Cause :=
  if isLegal w = false then .illegalCommand
  else if s.srcN < 0 ∨ s.dstCap < 0 then .badBufferLength
  else if s.srcN = 0 then .emptySource
  else if w = 0x00000006#32 ∧ (s.srcN % 8 = 1 ∨ s.srcN % 8 = 3 ∨ s.srcN % 8 = 6) then .badSourceLength
  else .dstTooSmall

theorem statusWord_causeByPriority (w : Word32) (s : State) :
    statusWord .faulted (causeByPriority w s) =
      if isLegal w = false then 0x13#32
      else if s.srcN < 0 ∨ s.dstCap < 0 then 0x23#32
      else if s.srcN = 0 then 0x33#32
      else if w = 0x00000006#32 ∧ (s.srcN % 8 = 1 ∨ s.srcN % 8 = 3 ∨ s.srcN % 8 = 6) then 0x43#32
      else 0x53#32 := by
  simp only [causeByPriority, apply_ite (statusWord .faulted)]
  rfl

/-- A command that ends FAULTED has the cause of the priority order. -/
theorem status_of_exec_faulted (h : exec i s = .next t) (hf : t.faulted = true) :
    t.status = statusWord .faulted (causeByPriority (encodeCmd i) s) := by
  have hlegal : ¬ isLegal (encodeCmd i) = false := by rw [isLegal_iff_encodes.2 ⟨i, rfl⟩]; decide
  obtain ⟨rfl | rfl, -⟩ := (exec_next h).raiseFault_of_faulted hf
  · obtain ⟨-, ⟨cause, hc, rfl⟩ | ⟨e, bytes, -, -, rfl⟩⟩ := execEncode_next h
    · have hword : encodeCmd .encode ≠ 0x00000006#32 := by decide
      rw [State.raiseFault_status, cause_of_encodeContract hc, causeByPriority, if_neg hlegal]
      simp only [hword, false_and, if_false]
    · rw [State.finish_faulted] at hf
      exact absurd hf (by decide)
  · obtain ⟨-, ⟨cause, hc, rfl⟩ | ⟨len, symbols, -, -, ⟨-, rfl⟩ | ⟨bytes, -, rfl⟩⟩⟩ := execDecode_next h
    · have hword : encodeCmd .decode = 0x00000006#32 := rfl
      rw [State.raiseFault_status, cause_of_decodeContract hc, causeByPriority, if_neg hlegal]
      simp only [hword, true_and]
    all_goals
      rw [State.finish_faulted] at hf
      exact absurd hf (by decide)

end Sys2Proof.Machine

namespace Sys2Proof.Proofs

open Sys2Proof.Machine

/-- Settles O18: each failed check is fault entry. -/
theorem encodeFaultsInOrder : Obligations.EncodeFaultsInOrder :=
  fun _ hp => ⟨fun h => encode_faultEntry hp (encodeContract_badBufferLength h),
    fun h hc => encode_faultEntry hp (encodeContract_emptySource h hc),
    fun h hc hsmall => encode_faultEntry hp (encodeContract_dstTooSmall h hc hsmall)⟩

/-- Settles O22: each failed check is fault entry. -/
theorem decodeFaultsInOrder : Obligations.DecodeFaultsInOrder :=
  fun _ hp => ⟨fun h => decode_faultEntry hp (decodeContract_badBufferLength h),
    fun h hc => decode_faultEntry hp (decodeContract_emptySource h hc),
    fun h hc hr => decode_faultEntry hp (decodeContract_badSourceLength h hc hr),
    fun h hc hr hsmall => decode_faultEntry hp (decodeContract_dstTooSmall h hc hr hsmall)⟩

/-- Settles O37: an illegal word faults by R55, and a command's cause is its first failed check. -/
theorem faultCausesByPriority : Obligations.FaultCausesByPriority := by
  intro s t w rest hp hlive h hf
  rw [← statusWord_causeByPriority]
  cases hd : decodeCmd w with
  | error r =>
    rw [step_writeCmd_of_illegal hlive hp hd] at h
    cases h
    rw [State.raiseFault_status, causeByPriority, if_pos (isLegal_of_error hd)]
  | ok i =>
    rw [step_writeCmd_of_ok hlive hp hd] at h
    rw [status_of_exec_faulted h hf, encodeCmd_of_decodeCmd hd]
    rfl

end Sys2Proof.Proofs
end

