-- ==== Sys2Proof/Proofs/RoundTrips.lean ====
section
/-! ENCODE and DECODE one after the other (42_encoder.md section 3, 43_decoder.md section 3), and the spellings that
DECODE takes alike. -/

namespace Sys2Proof.Machine

variable {i : Instr} {s t u : State} {bytes symbols symbols' out : List Byte}

/-! ### What a command that ended OK has written -/

/-- ENCODE of a provided source that ended OK had its preconditions met. -/
theorem writesDst_of_encode_ok (h : exec .encode s = .next t) (hst : t.status = 0) (hn : s.srcN = bytes.length)
    (hs : SrcProvided s bytes) : bytes ≠ [] ∧ WritesDst .encode s (encodeBytes bytes) := by
  obtain ⟨hp, ⟨cause, -, rfl⟩ | ⟨e, read, hc, -, rfl⟩⟩ := execEncode_next h
  · exact absurd (statusWord_eq_zero.1 hst).1 (by decide)
  · obtain ⟨hpos, -, he, hfit⟩ := encodeContract_ok hc
    obtain ⟨-, rfl, -⟩ := encodedLength_eq_some.1 he
    have hne : bytes ≠ [] := by rintro rfl; simp [hn] at hpos
    rw [hn, Int.toNat_natCast, ← encodeBytes_length] at hfit
    exact ⟨hne, encode_writesDst hp hne hn hs hfit⟩

/-- DECODE of a provided source that ended OK had its preconditions met, and its source decodes. -/
theorem writesDst_of_decode_ok (h : exec .decode s = .next t) (hst : t.status = 0) (hn : s.srcN = symbols.length)
    (hs : SrcProvided s symbols) :
    symbols ≠ [] ∧ ValidRemainder symbols.length ∧ ∃ out, decodeBytes symbols = some out ∧ WritesDst .decode s out := by
  obtain ⟨hp, ⟨cause, -, rfl⟩ | ⟨len, read, hc, hread, ⟨-, rfl⟩ | ⟨out, hd, rfl⟩⟩⟩ := execDecode_next h
  · exact absurd (statusWord_eq_zero.1 hst).1 (by decide)
  · exact absurd (statusWord_eq_zero.1 hst).1 (by decide)
  · obtain rfl : symbols = read := Option.some.inj ((readSrc_of_provided hs hn).symm.trans hread)
    obtain ⟨hpos, -, hlen, hfit⟩ := decodeContract_ok hc
    obtain ⟨-, hr, rfl⟩ := decodedLength_eq_some.1 hlen
    rw [hn, Int.toNat_natCast] at hr hfit
    have hne : symbols ≠ [] := by rintro rfl; simp [hn] at hpos
    rw [← decodeBytes_length hr hd] at hfit
    exact ⟨hne, hr, out, hd, decode_writesDst hp hne hn hs hr hd hfit⟩

/-- RESULT counts what was written, and a block that is given those bytes in SRC has them provided. -/
theorem WritesDst.provided (hw : WritesDst i s out) (h : exec i s = .next t)
    (hcopy : ∀ j : Nat, (j : Int) < t.resultN → u.src.read? j = t.dst.read? j) :
    t.resultN = out.length ∧ SrcProvided u out := by
  obtain ⟨t', h', hsuccess, hread⟩ := hw
  obtain rfl : t = t' := Host.Outcome.next.inj (h.symm.trans h')
  refine ⟨hsuccess.result, fun j hj => ?_⟩
  rw [hcopy j (by rw [hsuccess.result]; omega), hread j hj]

/-! ### Spellings -/

/-- DECODE of the same symbol values, spelled otherwise in another SRC, ends alike but for SRC. -/
theorem execDecode_congr {src' : Memory} (hs : SrcProvided s symbols) (hn : s.srcN = symbols.length)
    (hvalues : symbols'.map rev = symbols.map rev) (hs' : SrcProvided { s with src := src' } symbols')
    (h : execDecode s = .next t) : execDecode { s with src := src' } = .next { t with src := src' } := by
  have hlength : symbols'.length = symbols.length := by simpa using congrArg List.length hvalues
  have hread' : ({ s with src := src' } : State).readSrc s.srcN.toNat = some symbols' :=
    readSrc_of_provided (s := { s with src := src' }) hs' (hn.trans (by rw [hlength]))
  obtain ⟨hp, ⟨cause, hc, rfl⟩ | ⟨len, read, hc, hread, hend⟩⟩ := execDecode_next h
  · exact execDecode_of_error (s := { s with src := src' }) hp hc
  · obtain rfl : symbols = read := Option.some.inj ((readSrc_of_provided hs hn).symm.trans hread)
    rcases hend with ⟨hd, rfl⟩ | ⟨out, hd, rfl⟩ <;> rw [← decodeBytes_congr hvalues] at hd
    · exact execDecode_of_bad (s := { s with src := src' }) hp hc hread' hd
    · exact execDecode_of_ok (s := { s with src := src' }) hp hc hread' hd

/-- The aliases have the values of the digits they stand for (R66). -/
theorem rev_alias : ∀ p ∈ [('O', '0'), ('o', '0'), ('I', '1'), ('i', '1'), ('L', '1'), ('l', '1')],
    rev (ascii p.1) = rev (ascii p.2) := by decide +kernel

end Sys2Proof.Machine

namespace Sys2Proof.Proofs

open Sys2Proof.Machine

/-- Settles O23: decoding looks at the values of the symbols only, and the tables give the spellings their values. -/
theorem decodeIgnoresSpelling : Obligations.DecodeIgnoresSpelling := by
  refine ⟨fun s symbols symbols' src' hs hn hvalues hs' t h => execDecode_congr hs hn hvalues hs' h, rev_alias,
    fun v hv => ?_⟩
  rw [rev_letterOf_lowercase hv, rev_letterOf]

/-- Settles O25: what ENCODE wrote stands in SRC, has a valid length, and decodes to the source. -/
theorem decodeOfEncodeIsTheSource : Obligations.DecodeOfEncodeIsTheSource := by
  intro s t u bytes h hst hn hs _ hp hu hcap hcopy
  obtain ⟨hne, hw⟩ := writesDst_of_encode_ok h hst hn hs
  obtain ⟨hresult, hprovided⟩ := hw.provided h hcopy
  have hlength := encodeBytes_length bytes
  have hpos := List.length_pos_of_ne_nil hne
  have hr : ValidRemainder (encodeBytes bytes).length := by rw [ValidRemainder]; omega
  exact decode_writesDst hp (List.ne_nil_of_length_pos (by omega)) (hu.trans hresult) hprovided hr
    (decodeBytes_encodeBytes bytes) hcap

/-- Settles O26: what DECODE wrote stands in SRC, and its encoding is the source in canonical spelling. -/
theorem encodeOfDecodeIsCanonical : Obligations.EncodeOfDecodeIsCanonical := by
  intro s t u symbols h hst hn hs _ hp hu hcap hcopy
  obtain ⟨hne, hr, out, hd, hw⟩ := writesDst_of_decode_ok h hst hn hs
  obtain ⟨hresult, hprovided⟩ := hw.provided h hcopy
  have hcanonical := encodeBytes_of_decodeBytes symbols out hr hd
  have hlength : (encodeBytes out).length = symbols.length := by rw [hcanonical, List.length_map]
  have hpos := List.length_pos_of_ne_nil hne
  have hout : out ≠ [] := by
    refine List.ne_nil_of_length_pos ?_
    rw [decodeBytes_length hr hd]
    rw [ValidRemainder] at hr
    omega
  obtain ⟨r, hexec, hsuccess, hread⟩ :=
    encode_writesDst hp hout (hu.trans hresult) hprovided (by rwa [hlength])
  refine ⟨r, hexec, hlength ▸ hsuccess, fun j hj => ?_⟩
  rw [hread j (by rwa [hlength])]
  simp [hcanonical]

end Sys2Proof.Proofs
end

