-- ==== Sys2Proof/Proofs/CommandFrames.lean ====
section
/-! What every command keeps, and the STATUS words it can end with (10_state.md section 2, 20_memory.md section 1). -/

namespace Sys2Proof.Machine

variable {i : Instr} {s t : State}

theorem CommandEnd.onlyOutcomeAndDstChanged (h : CommandEnd i s t) : OnlyOutcomeAndDstChanged s t := by
  cases h with
  | entry | length | invalidLength | wrote | invalidChar | fault => exact ⟨_, _, _, _, rfl⟩

/-- No command reaches DST at or above DST_LEN. -/
theorem CommandEnd.sameDstFrom (h : CommandEnd i s t) : SameDstFrom s.dstCap.toNat s t := by
  cases h with
  | entry | length | invalidLength => exact fun k _ => State.finish_dstByte ..
  | wrote bytes fits => exact fun k hk => (bufferSuccess_finish s bytes fits).above k (by omega)
  | invalidChar | fault => exact sameDstFrom_havocDst s _

/-- A command other than ENCODE and DECODE changes STATUS and RESULT only. -/
theorem CommandEnd.onlyOutcomeChanged (h : CommandEnd i s t) (he : i ≠ .encode) (hd : i ≠ .decode) :
    OnlyOutcomeChanged s t := by
  cases h with
  | entry | length | invalidLength => exact ⟨_, _, rfl⟩
  | wrote _ _ _ command => exact absurd command (by simp [he, hd])
  | invalidChar _ command => exact absurd command hd
  | fault _ _ _ command => exact absurd command (by simp [he, hd])

/-- The STATUS words a command can end with: OK, a length command's or DECODE's data error, or a fault of ENCODE or
DECODE (R24). -/
def endingWords : Instr → List Word32
  | .symbolof _ => [0#32]
  | .valueof _ => [0#32]
  | .enclen => [0#32, 1#32]
  | .declen => [0#32, 1#32]
  | .encode => [0#32, 0x23#32, 0x33#32, 0x53#32]
  | .decode => [0#32, 2#32, 0x23#32, 0x33#32, 0x43#32, 0x53#32]

theorem zero_mem_endingWords (i : Instr) : statusWord .ok .none ∈ endingWords i := by
  cases i with
  | symbolof | valueof | enclen | declen | encode | decode => exact List.mem_cons_self

theorem decodeFault_mem_endingWords :
    ∀ cause ∈ [Cause.badBufferLength, .emptySource, .badSourceLength, .dstTooSmall],
      statusWord .faulted cause ∈ endingWords .decode := by decide

theorem encodeFault_mem_endingWords :
    ∀ cause ∈ [Cause.badBufferLength, .emptySource, .badSourceLength, .dstTooSmall], cause ≠ .badSourceLength →
      statusWord .faulted cause ∈ endingWords .encode := by decide

theorem CommandEnd.status_mem (h : CommandEnd i s t) : t.status ∈ endingWords i := by
  cases h with
  | entry | length | wrote => exact zero_mem_endingWords i
  | invalidLength command =>
    rw [State.finish_status]
    rcases command with rfl | rfl <;> decide
  | invalidChar _ command =>
    subst command
    rw [State.finish_status]
    decide
  | fault cause known _ command =>
    rw [State.raiseFault_status]
    rcases command with rfl | ⟨rfl, hne⟩
    · exact decodeFault_mem_endingWords cause known
    · exact encodeFault_mem_endingWords cause known hne

end Sys2Proof.Machine

namespace Sys2Proof.Proofs

open Sys2Proof.Machine

/-- Settles O27: each way a command can end keeps its frame. -/
theorem commandsKeepEverythingElse : Obligations.CommandsKeepEverythingElse :=
  fun _ _ _ h => ⟨(exec_next h).onlyOutcomeAndDstChanged, (exec_next h).sameDstFrom,
    (exec_next h).onlyOutcomeChanged⟩

/-- Settles O30: each way a command can end is with one of its words. -/
theorem statusWordsOfEachCommand : Obligations.StatusWordsOfEachCommand := by
  intro i s t h
  have hmem := (exec_next h).status_mem
  cases i with
  | symbolof | valueof => exact List.mem_singleton.1 hmem
  | enclen | declen | encode | decode => exact hmem

end Sys2Proof.Proofs
end

