-- ==== Sys2Proof/Proofs/WhereExecStops.lean ====
section
/-! The stops of `exec` (20_memory.md R32 and R43, log entry 4): a source byte that nobody provided, and overlapping
buffers. -/

namespace Sys2Proof.Machine

variable {s : State}

/-! ### A source that is not there -/

theorem execEncode_of_unprovided (hp : s.placement = .disjoint) {e : Nat} (h : encodeContract s = .ok e)
    (hb : s.readSrc s.srcN.toNat = none) : execEncode s = .fault .sourceNotProvided := by
  simp [execEncode, hp, h, hb]

theorem execDecode_of_unprovided (hp : s.placement = .disjoint) {len : Nat} (h : decodeContract s = .ok len)
    (hb : s.readSrc s.srcN.toNat = none) : execDecode s = .fault .sourceNotProvided := by
  simp [execDecode, hp, h, hb]

/-- The source cannot be read exactly where one of its bytes was never provided (R32). -/
theorem readSrc_eq_none_iff :
    s.readSrc s.srcN.toNat = none ↔ ∃ k : Nat, (k : Int) < s.srcN ∧ s.src.read? k = none := by
  rw [State.readSrc, Memory.readBytes?_eq_none]
  simp only [Nat.zero_add, Int.lt_toNat]

/-! ### When the checks pass -/

theorem encodeContract_ok_iff :
    (∃ e, encodeContract s = .ok e) ↔ 0 < s.srcN ∧ (8 * s.srcN + 4) / 5 ≤ s.dstCap := by
  constructor
  · rintro ⟨e, h⟩
    obtain ⟨hpos, -, he, hfit⟩ := encodeContract_ok h
    obtain ⟨-, rfl, -⟩ := encodedLength_eq_some.1 he
    omega
  · rintro ⟨hpos, hfit⟩
    exact ⟨_, encodeContract_of_fits (n := s.srcN.toNat) (by omega) (by omega) (by omega)⟩

theorem decodeContract_ok_iff :
    (∃ len, decodeContract s = .ok len) ↔
      0 < s.srcN ∧ ValidRemainder s.srcN.toNat ∧ 5 * s.srcN / 8 ≤ s.dstCap := by
  constructor
  · rintro ⟨len, h⟩
    obtain ⟨hpos, -, hlen, hfit⟩ := decodeContract_ok h
    obtain ⟨-, hr, rfl⟩ := decodedLength_eq_some.1 hlen
    exact ⟨hpos, hr, by omega⟩
  · rintro ⟨hpos, hr, hfit⟩
    exact ⟨_, decodeContract_of_fits (n := s.srcN.toNat) (by omega) (by omega) hr (by omega)⟩

/-! ### The three outcomes of ENCODE and DECODE -/

theorem execEncode_outcomes (s : State) :
    (s.placement = .overlapping ∧ execEncode s = .refused .overlappingBuffers) ∨
    (∃ t, execEncode s = .next t) ∨
    (s.placement = .disjoint ∧ (∃ e, encodeContract s = .ok e) ∧ s.readSrc s.srcN.toNat = none ∧
      execEncode s = .fault .sourceNotProvided) := by
  cases hp : s.placement with
  | overlapping => exact .inl ⟨rfl, execEncode_of_overlapping hp⟩
  | disjoint =>
    refine .inr ?_
    cases hc : encodeContract s with
    | error cause => exact .inl ⟨_, execEncode_of_error hp hc⟩
    | ok e =>
      cases hb : s.readSrc s.srcN.toNat with
      | none => exact .inr ⟨rfl, ⟨e, rfl⟩, rfl, execEncode_of_unprovided hp hc hb⟩
      | some bytes => exact .inl ⟨_, execEncode_of_ok hp hc hb⟩

theorem execDecode_outcomes (s : State) :
    (s.placement = .overlapping ∧ execDecode s = .refused .overlappingBuffers) ∨
    (∃ t, execDecode s = .next t) ∨
    (s.placement = .disjoint ∧ (∃ len, decodeContract s = .ok len) ∧ s.readSrc s.srcN.toNat = none ∧
      execDecode s = .fault .sourceNotProvided) := by
  cases hp : s.placement with
  | overlapping => exact .inl ⟨rfl, execDecode_of_overlapping hp⟩
  | disjoint =>
    refine .inr ?_
    cases hc : decodeContract s with
    | error cause => exact .inl ⟨_, execDecode_of_error hp hc⟩
    | ok len =>
      cases hb : s.readSrc s.srcN.toNat with
      | none => exact .inr ⟨rfl, ⟨len, rfl⟩, rfl, execDecode_of_unprovided hp hc hb⟩
      | some symbols =>
        cases hd : decodeBytes symbols with
        | none => exact .inl ⟨_, execDecode_of_bad hp hc hb hd⟩
        | some bytes => exact .inl ⟨_, execDecode_of_ok hp hc hb hd⟩

/-- ENCODE faults only for want of a source byte, after its checks (log entry 4). -/
theorem execEncode_fault {f : Fault} (h : execEncode s = .fault f) :
    f = .sourceNotProvided ∧ s.placement = .disjoint ∧ (∃ e, encodeContract s = .ok e) ∧
      s.readSrc s.srcN.toNat = none := by
  obtain ⟨-, h'⟩ | ⟨t, h'⟩ | ⟨hp, hc, hb, h'⟩ := execEncode_outcomes s <;> rw [h'] at h <;> cases h
  exact ⟨rfl, hp, hc, hb⟩

/-- DECODE faults only for want of a source byte, after its checks (log entry 4). -/
theorem execDecode_fault {f : Fault} (h : execDecode s = .fault f) :
    f = .sourceNotProvided ∧ s.placement = .disjoint ∧ (∃ len, decodeContract s = .ok len) ∧
      s.readSrc s.srcN.toNat = none := by
  obtain ⟨-, h'⟩ | ⟨t, h'⟩ | ⟨hp, hc, hb, h'⟩ := execDecode_outcomes s <;> rw [h'] at h <;> cases h
  exact ⟨rfl, hp, hc, hb⟩

/-- ENCODE is refused only over overlapping buffers (R43). -/
theorem execEncode_refused {r : Refusal} (h : execEncode s = .refused r) :
    r = .overlappingBuffers ∧ s.placement = .overlapping := by
  obtain ⟨hp, h'⟩ | ⟨t, h'⟩ | ⟨-, -, -, h'⟩ := execEncode_outcomes s <;> rw [h'] at h <;> cases h
  exact ⟨rfl, hp⟩

/-- DECODE is refused only over overlapping buffers (R43). -/
theorem execDecode_refused {r : Refusal} (h : execDecode s = .refused r) :
    r = .overlappingBuffers ∧ s.placement = .overlapping := by
  obtain ⟨hp, h'⟩ | ⟨t, h'⟩ | ⟨-, -, -, h'⟩ := execDecode_outcomes s <;> rw [h'] at h <;> cases h
  exact ⟨rfl, hp⟩

end Sys2Proof.Machine

namespace Sys2Proof.Proofs

open Sys2Proof.Machine

/-- Settles O33: only ENCODE and DECODE stop, and when is decided by their checks and by the source. -/
theorem whereExecStops : Obligations.WhereExecStops := by
  refine ⟨fun i s f h => ?fault, fun s hp hpos hmissing => ?stops, fun i s r h => ?refused⟩
  case fault =>
    cases i with
    | symbolof | valueof | enclen | declen => cases h
    | encode =>
      obtain ⟨hf, hp, hc, hb⟩ := execEncode_fault h
      obtain ⟨hpos, hfit⟩ := encodeContract_ok_iff.1 hc
      exact ⟨hf, hp, hpos, readSrc_eq_none_iff.1 hb, .inl ⟨rfl, hfit⟩⟩
    | decode =>
      obtain ⟨hf, hp, hc, hb⟩ := execDecode_fault h
      obtain ⟨hpos, hr, hfit⟩ := decodeContract_ok_iff.1 hc
      exact ⟨hf, hp, hpos, readSrc_eq_none_iff.1 hb, .inr ⟨rfl, hr, hfit⟩⟩
  case stops =>
    have hb := readSrc_eq_none_iff.2 hmissing
    refine ⟨fun hfit => ?_, fun hr hfit => ?_⟩
    · obtain ⟨e, hc⟩ := encodeContract_ok_iff.2 ⟨hpos, hfit⟩
      exact execEncode_of_unprovided hp hc hb
    · obtain ⟨len, hc⟩ := decodeContract_ok_iff.2 ⟨hpos, hr, hfit⟩
      exact execDecode_of_unprovided hp hc hb
  case refused =>
    cases i with
    | symbolof | valueof | enclen | declen => cases h
    | encode =>
      obtain ⟨hr, hp⟩ := execEncode_refused h
      exact ⟨hr, hp, .inl rfl⟩
    | decode =>
      obtain ⟨hr, hp⟩ := execDecode_refused h
      exact ⟨hr, hp, .inr rfl⟩

end Sys2Proof.Proofs
end

