-- ==== Sys2Proof/Proofs/OperandsOnly.lean ====
section
/-! A command's effect is a function of its operands (10_state.md section 1, 20_memory.md section 1): blocks that agree
on the operands pass the same checks, read the same source and so end in the same way. -/

namespace Sys2Proof.Machine

variable {s s' : State}

/-! ### The same effect of one operation on two blocks -/

/-- From `s` to `t` and from `s'` to `t'` the same has happened: STATUS and RESULT are the same, and each DST byte is
kept in both, written with the same byte in both, or drawn afresh in both. -/
def SameEffect (s s' t t' : State) : Prop :=
  t.status = t'.status ∧ t.resultN = t'.resultN ∧
    ∀ k, (t.dstByte k = s.dstByte k ∧ t'.dstByte k = s'.dstByte k) ∨
      (∃ b, t.dst.read? k = some b ∧ t'.dst.read? k = some b) ∨
      (t.dstByte k = Config.freeDstByte (drawsAt s.dstDraws k + 1) k ∧
        t'.dstByte k = Config.freeDstByte (drawsAt s'.dstDraws k + 1) k)

/-- The signed reading of a word depends on LEN_W alone. -/
theorem State.toInt_word_congr (hw : s.lenW = s'.lenW) (v : Int) : (s.word v).toInt = (s'.word v).toInt := by
  rw [State.word, State.word, BitVec.toInt_ofInt, BitVec.toInt_ofInt, hw]

theorem sameEffect_finish (hw : s.lenW = s'.lenW) (code : Code) (r : Int) :
    SameEffect s s' (s.finish code r) (s'.finish code r) :=
  ⟨rfl, State.toInt_word_congr hw r, fun _ => .inl ⟨rfl, rfl⟩⟩

theorem sameEffect_wrote (hw : s.lenW = s'.lenW) (bytes : List Byte) (r : Int) :
    SameEffect s s' ((s.writeDst bytes).finish .ok r) ((s'.writeDst bytes).finish .ok r) := by
  refine ⟨rfl, State.toInt_word_congr hw r, fun k => ?_⟩
  by_cases hk : k < bytes.length
  · exact .inr (.inl ⟨bytes[k], s.dst.read?_writeBytes_zero bytes k hk, s'.dst.read?_writeBytes_zero bytes k hk⟩)
  · refine .inl ⟨?_, ?_⟩ <;> simp [State.writeDst_dstByte, hk]

/-- A draw over the same range leaves the same bytes fresh in both blocks and keeps the others. -/
theorem dst_of_havocDst (s s' : State) (hi k : Nat) :
    ((s.havocDst hi).dstByte k = s.dstByte k ∧ (s'.havocDst hi).dstByte k = s'.dstByte k) ∨
      ((s.havocDst hi).dstByte k = Config.freeDstByte (drawsAt s.dstDraws k + 1) k ∧
        (s'.havocDst hi).dstByte k = Config.freeDstByte (drawsAt s'.dstDraws k + 1) k) := by
  by_cases hk : k < hi
  · exact .inr ⟨freshDstBelow_havocDst s hi k hk, freshDstBelow_havocDst s' hi k hk⟩
  · exact .inl ⟨sameDstFrom_havocDst s hi k (Nat.not_lt.1 hk), sameDstFrom_havocDst s' hi k (Nat.not_lt.1 hk)⟩

theorem sameEffect_invalidChar (hw : s.lenW = s'.lenW) (hcap : s.dstCap = s'.dstCap) :
    SameEffect s s' (s.havocCapacity.finish .invalidChar (-1)) (s'.havocCapacity.finish .invalidChar (-1)) := by
  refine ⟨rfl, State.toInt_word_congr hw _, fun k => ?_⟩
  rw [State.havocCapacity_eq, State.havocCapacity_eq, ← hcap]
  exact (dst_of_havocDst s s' s.dstCap.toNat k).imp_right .inr

theorem sameEffect_raiseFault (hw : s.lenW = s'.lenW) (hcap : s.dstCap = s'.dstCap) (cause : Cause) :
    SameEffect s s' (s.raiseFault .used cause) (s'.raiseFault .used cause) := by
  refine ⟨rfl, State.toInt_word_congr hw _, fun k => ?_⟩
  rw [State.raiseFault_dstByte, State.raiseFault_dstByte, ← State.havocDst_dstByte, ← State.havocDst_dstByte,
    Buffers.havocBelow, Buffers.havocBelow, ← hcap]
  exact (dst_of_havocDst s s' s.dstCap.toNat k).imp_right .inr

/-! ### The same ending of one command in two blocks -/

/-- Two outcomes of a command, from `s` and from `s'`, are of the same kind and for the same reason or with the same
effect. -/
def SameEnding (s s' : State) : Host.Outcome State Fault Refusal → Host.Outcome State Fault Refusal → Prop
  | .next t, .next t' => SameEffect s s' t t'
  | .fault r, .fault r' => r = r'
  | .refused r, .refused r' => r = r'
  | _, _ => False

/-- The blocks agree on what a command takes: ARG, SRC_LEN, DST_LEN, the source bytes, LEN_W and where the
buffers lie. -/
structure SameOperands (s s' : State) : Prop where
  lenW : s.lenW = s'.lenW
  placement : s.placement = s'.placement
  argN : s.argN = s'.argN
  srcN : s.srcN = s'.srcN
  dstCap : s.dstCap = s'.dstCap
  src : ∀ k : Nat, (k : Int) < s.srcN → s.src.read? k = s'.src.read? k

theorem SameOperands.encodeContract_eq (h : SameOperands s s') : encodeContract s = encodeContract s' := by
  rw [encodeContract, encodeContract, h.lenW, h.srcN, h.dstCap]

theorem SameOperands.decodeContract_eq (h : SameOperands s s') : decodeContract s = decodeContract s' := by
  rw [decodeContract, decodeContract, h.srcN, h.dstCap]

theorem SameOperands.readSrc_eq (h : SameOperands s s') : s.readSrc s.srcN.toNat = s'.readSrc s'.srcN.toNat := by
  rw [State.readSrc, State.readSrc, ← h.srcN]
  exact Memory.readBytes?_congr fun k _ hk => h.src k (by omega)

theorem SameOperands.encode (h : SameOperands s s') : SameEnding s s' (execEncode s) (execEncode s') := by
  have hp := h.placement
  have hc := h.encodeContract_eq
  have hb := h.readSrc_eq
  cases hp' : s'.placement with
  | overlapping =>
    rw [execEncode_of_overlapping (hp.trans hp'), execEncode_of_overlapping hp']
    rfl
  | disjoint =>
    rw [hp'] at hp
    cases hc' : encodeContract s' with
    | error cause =>
      rw [execEncode_of_error hp (hc.trans hc'), execEncode_of_error hp' hc']
      exact sameEffect_raiseFault h.lenW h.dstCap cause
    | ok e =>
      cases hb' : s'.readSrc s'.srcN.toNat with
      | none =>
        rw [execEncode_of_unprovided hp (hc.trans hc') (hb.trans hb'), execEncode_of_unprovided hp' hc' hb']
        rfl
      | some bytes =>
        rw [execEncode_of_ok hp (hc.trans hc') (hb.trans hb'), execEncode_of_ok hp' hc' hb']
        exact sameEffect_wrote h.lenW (encodeBytes bytes) e

theorem SameOperands.decode (h : SameOperands s s') : SameEnding s s' (execDecode s) (execDecode s') := by
  have hp := h.placement
  have hc := h.decodeContract_eq
  have hb := h.readSrc_eq
  cases hp' : s'.placement with
  | overlapping =>
    rw [execDecode_of_overlapping (hp.trans hp'), execDecode_of_overlapping hp']
    rfl
  | disjoint =>
    rw [hp'] at hp
    cases hc' : decodeContract s' with
    | error cause =>
      rw [execDecode_of_error hp (hc.trans hc'), execDecode_of_error hp' hc']
      exact sameEffect_raiseFault h.lenW h.dstCap cause
    | ok len =>
      cases hb' : s'.readSrc s'.srcN.toNat with
      | none =>
        rw [execDecode_of_unprovided hp (hc.trans hc') (hb.trans hb'), execDecode_of_unprovided hp' hc' hb']
        rfl
      | some symbols =>
        cases hd : decodeBytes symbols with
        | none =>
          rw [execDecode_of_bad hp (hc.trans hc') (hb.trans hb') hd, execDecode_of_bad hp' hc' hb' hd]
          exact sameEffect_invalidChar h.lenW h.dstCap
        | some bytes =>
          rw [execDecode_of_ok hp (hc.trans hc') (hb.trans hb') hd, execDecode_of_ok hp' hc' hb' hd]
          exact sameEffect_wrote h.lenW bytes len

theorem SameOperands.exec (h : SameOperands s s') (i : Instr) : SameEnding s s' (exec i s) (exec i s') := by
  cases i with
  | symbolof | valueof => exact sameEffect_finish h.lenW .ok _
  | enclen =>
    rw [exec_enclen, exec_enclen, h.lenW, h.argN]
    exact sameEffect_finish h.lenW _ _
  | declen =>
    rw [exec_declen, exec_declen, h.argN]
    exact sameEffect_finish h.lenW _ _
  | encode => exact h.encode
  | decode => exact h.decode

end Sys2Proof.Machine

namespace Sys2Proof.Proofs

open Sys2Proof.Machine

/-- Settles O31: blocks with the same operands end every command alike. -/
theorem effectDependsOnOperandsOnly : Obligations.EffectDependsOnOperandsOnly :=
  fun i _ _ hw hp harg hsrcN hcap hsrc => (SameOperands.mk hw hp harg hsrcN hcap hsrc).exec i

end Sys2Proof.Proofs
end

