-- ==== Sys2Proof/Proofs/HostStores.lean ====
section
/-! The host's own stores into SRC and DST (20_memory.md R31, 30_encoding.md R60), and the idle block (log entry 3). -/

namespace Sys2Proof.Machine

variable {s : State} {rest : List HostAction}

theorem storeBuffer_of_disjoint (hp : s.placement = .disjoint) (t : State) : storeBuffer s t = .next t := by
  simp [storeBuffer, hp]

theorem step_fillSrc {bytes : List Byte} (hp : s.placement = .disjoint) (h : s.pending = .fillSrc bytes :: rest) :
    step s = .next { s with pending := rest, src := s.src.writeBytes 0 bytes } :=
  (step_of_pending h).trans (storeBuffer_of_disjoint (s := s.withPending rest) hp _)

theorem step_storeSrc {k : Nat} {b : Byte} (hp : s.placement = .disjoint) (h : s.pending = .storeSrc k b :: rest) :
    step s = .next { s with pending := rest, src := s.src.write k b } :=
  (step_of_pending h).trans (storeBuffer_of_disjoint (s := s.withPending rest) hp _)

theorem step_storeDst {k : Nat} {b : Byte} (hp : s.placement = .disjoint) (h : s.pending = .storeDst k b :: rest) :
    step s = .next { s with pending := rest, dst := s.dst.write k b } :=
  (step_of_pending h).trans (storeBuffer_of_disjoint (s := s.withPending rest) hp _)

theorem step_readDst {first last : Nat} (h : s.pending = .readDst first last :: rest) :
    step s = .next (s.withPending rest) :=
  step_of_pending h

end Sys2Proof.Machine

namespace Sys2Proof.Proofs

open Sys2Proof.Machine

/-- Settles O35: each store from its rule, and the bytes after it from reading after writing. -/
theorem hostBufferStores : Obligations.HostBufferStores := by
  intro s rest hp
  refine ⟨fun bytes h => ⟨_, step_fillSrc hp h, fun k => ?fill⟩,
    fun k b h => ⟨_, step_storeSrc hp h, fun j => s.src.read?_write k j b⟩,
    fun k b h => ⟨_, step_storeDst hp h, fun j => s.dst.read?_write k j b⟩, fun _ _ h => step_readDst h⟩
  case fill =>
    rw [Memory.read?_writeBytes]
    simp only [Nat.zero_le, true_and, Nat.zero_add, Nat.sub_zero]

/-- Settles O41, from the rule for a step with nothing pending. -/
theorem idleBlockStays : Obligations.IdleBlockStays := fun _ h => step_of_idle h

end Sys2Proof.Proofs
end

