-- ==== Sys2Proof/Proofs/AssemblerLines.lean ====
section
/-! The lines of the assembler (30_encoding.md R59, R61): which operands are accepted, and the host writes of each
line. -/

namespace Sys2Proof.Machine

variable {w : LenW} {v n cap : Int}

/-! ### Command lines -/

theorem assemble_symbolof_isSome : (assemble w (.symbolof v)).isSome ↔ 0 ≤ v ∧ v ≤ 31 := by
  rw [assemble, Option.isSome_map, Instr.ofSymbolOperand, Option.isSome_ite, WellFormed.symbolOperand,
    decide_eq_true_iff]

theorem assemble_valueof_isSome : (assemble w (.valueof v)).isSome ↔ 0 ≤ v ∧ v ≤ 255 := by
  rw [assemble, Option.isSome_map, Instr.ofCharacterOperand, Option.isSome_ite, WellFormed.characterOperand,
    decide_eq_true_iff]

theorem encodeCmd_symbolof_ofNat {v : Nat} (h : v ≤ 31) :
    encodeCmd (.symbolof (BitVec.ofNat 5 v)) = BitVec.ofNat 32 (1 + 256 * v) := by
  apply BitVec.eq_of_toNat_eq
  rw [encodeCmd_symbolof_toNat, BitVec.toNat_ofNat, BitVec.toNat_ofNat]
  omega

theorem encodeCmd_valueof_ofNat {c : Nat} (h : c ≤ 255) :
    encodeCmd (.valueof (BitVec.ofNat 8 c)) = BitVec.ofNat 32 (2 + 256 * c) := by
  apply BitVec.eq_of_toNat_eq
  rw [encodeCmd_valueof_toNat, BitVec.toNat_ofNat, BitVec.toNat_ofNat]
  omega

theorem assemble_symbolof {v : Nat} (h : v ≤ 31) :
    assemble w (.symbolof v) = some [.writeCmd (BitVec.ofNat 32 (1 + 256 * v))] := by
  have hfits : WellFormed.symbolOperand v = true := decide_eq_true (by omega)
  rw [assemble, Instr.ofSymbolOperand, if_pos hfits, BitVec.ofInt_natCast, Option.map_some, commandLine,
    encodeCmd_symbolof_ofNat h]

theorem assemble_valueof {c : Nat} (h : c ≤ 255) :
    assemble w (.valueof c) = some [.writeCmd (BitVec.ofNat 32 (2 + 256 * c))] := by
  have hfits : WellFormed.characterOperand c = true := decide_eq_true (by omega)
  rw [assemble, Instr.ofCharacterOperand, if_pos hfits, BitVec.ofInt_natCast, Option.map_some, commandLine,
    encodeCmd_valueof_ofNat h]

/-! ### Pseudo-instructions -/

theorem lengthNumber_of_fits (h : WellFormed.lengthOperand w v = true) : lengthNumber w v = some v := if_pos h

theorem bufferCommand_of_fits (hn : WellFormed.lengthOperand w n = true) (hcap : WellFormed.lengthOperand w cap = true)
    (i : Instr) : bufferCommand w n cap i = some [.writeSrcLen n, .writeDstLen cap, commandLine i] := by
  simp only [bufferCommand, writeStatement, lengthNumber_of_fits hn, lengthNumber_of_fits hcap, Option.map_some]

theorem assemble_lengthLine (hn : WellFormed.lengthOperand w n = true) :
    assemble w (.enclenOf n) = some [.writeArg n, commandLine .enclen] ∧
      assemble w (.declenOf n) = some [.writeArg n, commandLine .declen] := by
  simp only [assemble, writeStatement, lengthNumber_of_fits hn, Option.map_some, and_self]

end Sys2Proof.Machine

namespace Sys2Proof.Proofs

open Sys2Proof.Machine

/-- Settles O42: a number that fits is written as it stands, and the command's word follows. -/
theorem pseudoInstructionsExpand : Obligations.PseudoInstructionsExpand := by
  intro w n cap hn hcap
  obtain ⟨henclen, hdeclen⟩ := assemble_lengthLine hn
  exact ⟨henclen, hdeclen, bufferCommand_of_fits hn hcap .encode, bufferCommand_of_fits hn hcap .decode⟩

/-- Settles O43: the operand lines by their bounds and words, the bare ones by their constant words. -/
theorem commandLinesAssemble : Obligations.CommandLinesAssemble :=
  fun _ => ⟨fun _ => assemble_symbolof_isSome, fun _ => assemble_valueof_isSome, fun _ => assemble_symbolof,
    fun _ => assemble_valueof, ⟨rfl, rfl, rfl, rfl⟩, fun _ => rfl⟩

end Sys2Proof.Proofs
end

