-- ==== Sys2Proof/Proofs/InstancesApart.lean ====
section
/-! Several instances (60_exceptions.md R97): a step of one is decided by that one's state, and replaces that one's
state. -/

namespace Sys2Proof.Machine

variable {instances after : List State} {j k : Nat} {s t : State}

theorem stepOf_of_none (h : instances[k]? = none) : stepOf instances k = .next instances := by
  simp [stepOf, h]

theorem stepOf_of_next (h : instances[k]? = some s) (hstep : step s = .next t) :
    stepOf instances k = .next (instances.set k t) := by
  simp [stepOf, h, hstep]

/-- Everything a step at one position can have done: nothing where no block stands there, or that block's step. -/
theorem stepOf_next (h : stepOf instances k = .next after) :
    (instances[k]? = none ∧ after = instances) ∨
      ∃ s t, instances[k]? = some s ∧ step s = .next t ∧ after = instances.set k t := by
  cases hk : instances[k]? with
  | none =>
    rw [stepOf_of_none hk] at h
    cases h
    exact .inl ⟨rfl, rfl⟩
  | some s =>
    cases hs : step s with
    | next t =>
      rw [stepOf_of_next hk hs] at h
      cases h
      exact .inr ⟨s, t, rfl, hs, rfl⟩
    | fault r => simp [stepOf, hk, hs] at h
    | refused r => simp [stepOf, hk, hs] at h

/-- A step at one position leaves every other block as it was. -/
theorem stepOf_frame (h : stepOf instances k = .next after) (hjk : j ≠ k) : after[j]? = instances[j]? := by
  obtain ⟨-, rfl⟩ | ⟨s, t, -, -, rfl⟩ := stepOf_next h
  · rfl
  · exact List.getElem?_set_ne hjk.symm

/-- A step at one position is decided by the state there: among any other blocks it leads to the same state. -/
theorem stepOf_local {others : List State} (h : stepOf instances k = .next after)
    (hsame : others[k]? = instances[k]?) : ∃ after', stepOf others k = .next after' ∧ after'[k]? = after[k]? := by
  obtain ⟨hk, rfl⟩ | ⟨s, t, hk, hs, rfl⟩ := stepOf_next h
  · exact ⟨others, stepOf_of_none (hsame.trans hk), hsame⟩
  · refine ⟨others.set k t, stepOf_of_next (hsame.trans hk) hs, ?_⟩
    rw [List.getElem?_set_self', List.getElem?_set_self', hsame]

end Sys2Proof.Machine

namespace Sys2Proof.Proofs

open Sys2Proof.Machine

/-- Settles O44: each step is decided by its own block, which the other step leaves alone, so that both orders agree at
the two positions and at every other. -/
theorem instancesDoNotInteract : Obligations.InstancesDoNotInteract := by
  intro instances afterJ afterK afterJK j k hjk hJ hK hJK
  obtain ⟨after, hKJ, hatJ⟩ := stepOf_local hJ (stepOf_frame hK hjk)
  obtain ⟨after', hJK', hatK⟩ := stepOf_local hK (stepOf_frame hJ hjk.symm)
  obtain rfl : after' = afterJK := Host.Outcome.next.inj (hJK'.symm.trans hJK)
  have horder : after = after' := by
    refine List.ext_getElem? fun i => ?_
    by_cases hij : i = j
    · rw [hij, hatJ, stepOf_frame hJK hjk]
    · rw [stepOf_frame hKJ hij]
      by_cases hik : i = k
      · rw [hik, hatK]
      · rw [stepOf_frame hK hik, stepOf_frame hJK hik, stepOf_frame hJ hij]
  exact ⟨horder ▸ hKJ, stepOf_frame hJ hjk.symm, stepOf_frame hJK hjk, hatK⟩

end Sys2Proof.Proofs
end
